-- ==== Sys2Proof/Word.lean ====
section
/-! DEFINITION. The widths of the machine's words, bytes and command words. -/

namespace Sys2Proof

/-- One byte of the block buffer, of the key, of the data or of the digest. -/
abbrev Byte := BitVec 8

/-- The storage of one register of `H`, `V` or `M`: 64 bits, of which variant `S` uses the low 32
(R38 of 10_state.md). -/
abbrev Word := BitVec 64

/-- The storage of the byte counter `T`: 128 bits, of which variant `S` uses the low 64 (R38). -/
abbrev Counter := BitVec 128

/-- One command word (R70 of 30_encoding.md). -/
abbrev CmdWord := BitVec 32

end Sys2Proof
end

