-- ==== Sys2Proof/Syntax.lean ====
section
/-! DEFINITION. The commands of the engine as syntax: one constructor for each row of the opcode map
(R72 of 30_encoding.md). -/

namespace Sys2Proof

/-- The variant of an invocation (R5 of 00_scope.md): `B` is BLAKE2b, `S` is BLAKE2s. -/
inductive Variant
  | B
  | S
  deriving DecidableEq, Repr

/-- The eight commands (R72). Lengths, indices and addresses are the naturals the assembler syntax of
R80 writes; that they fit their fields is `Instr.wf` (log 13). -/
inductive Instr
  /-- `RESET` (R153 of 43_driver_commands.md). -/
  | reset
  /-- `INIT var, nn, kk` (R152, R155): variant, digest length, key length. -/
  | init (var : Variant) (nn kk : Nat)
  /-- `KEYB byte` (R160): one key byte. -/
  | keyb (byte : Byte)
  /-- `DATAB byte` (R164): one message byte. -/
  | datab (byte : Byte)
  /-- `FINAL` (R167). -/
  | final
  /-- `RDREG idx` (R181 of 44_readout_commands.md): read a register by number. -/
  | rdreg (idx : Nat)
  /-- `RDDIG idx` (R184): read a digest byte. -/
  | rddig (idx : Nat)
  /-- `RDROM addr` (R118 of 41_constant_rom.md): read a constant. -/
  | rdrom (addr : Nat)
  deriving DecidableEq, Repr

end Sys2Proof
end

