-- ==== Sys2Proof/Machine/Variant.lean ====
section
/-! DEFINITION. The parameters of the two variants (R5 of 00_scope.md). -/

namespace Sys2Proof

/-- `W`, the word width in bits. -/
def Variant.wordBits : Variant → Nat
  | .B => 64
  | .S => 32

/-- `W/8`, bytes in a word. -/
def Variant.wordBytes : Variant → Nat
  | .B => 8
  | .S => 4

/-- `bb`, bytes in a block. -/
def Variant.blockBytes : Variant → Nat
  | .B => 128
  | .S => 64

/-- `R`, rounds in a compression. -/
def Variant.rounds : Variant → Nat
  | .B => 12
  | .S => 10

/-- `nn_max`, the largest digest length in bytes. -/
def Variant.nnMax : Variant → Nat
  | .B => 64
  | .S => 32

/-- `kk_max`, the largest key length in bytes. -/
def Variant.kkMax : Variant → Nat
  | .B => 64
  | .S => 32

/-- `TW = 2 * W`, the width of the byte counter in bits. -/
def Variant.counterBits (var : Variant) : Nat := 2 * var.wordBits

/-- The rounds of a compression in order (R135 of 42_compressor_f.md): rows 0 to 11 of SIGMA for `B`,
0 to 9 for `S`. -/
def Variant.roundIndices : Variant → List (Fin 12)
  | .B => [0, 1, 2, 3, 4, 5, 6, 7, 8, 9, 10, 11]
  | .S => [0, 1, 2, 3, 4, 5, 6, 7, 8, 9]

/-- Neither variant has more rounds than SIGMA has rows. -/
theorem Variant.rounds_le (var : Variant) : var.rounds ≤ 12 := by cases var <;> decide

end Sys2Proof
end

