-- ==== Sys2Proof/Machine/State.lean ====
section
/-! DEFINITION. The state of one engine instance (10_state.md R20), the host's side of it that the
model holds as data, and the outcomes of a step. -/

namespace Sys2Proof.Machine

/-- `PHASE` (R30, R31). Codes 5 to 15 never occur (log 19). -/
inductive Phase
  /-- Before the first invocation and after `RESET`. -/
  | idle
  /-- Key bytes are owed. -/
  | key
  /-- Data bytes or `FINAL` may come. -/
  | data
  /-- The digest can be read. -/
  | done
  /-- A fault was raised; left only by `RESET` or hardware reset. -/
  | fault
  deriving DecidableEq, Repr

/-- The engine's five faults (R190 of 60_exceptions.md). Each is TAKEN as a next state (R196). -/
inductive EngineFault
  | invalidParameter
  | sequenceError
  | illegalCommand
  | operandRange
  | lengthOverflow
  deriving DecidableEq, Repr

/-- The response of one command (R78 of 30_encoding.md). -/
structure Response where
  rc : BitVec 4
  data : BitVec 64
  deriving DecidableEq, Repr

/-- What the host does next to the engine (R84). Plain data: the model's input (log 1). -/
inductive HostEvent
  /-- A command word is presented and runs to completion (R75). -/
  | command (w : CmdWord)
  /-- Hardware reset between commands (R220). -/
  | hardReset
  /-- Hardware reset while the command `w` executes: the command is cut short and gives no response
  (R220, 93_implementation_defined.md U15; log 4). -/
  | commandCut (w : CmdWord)
  deriving DecidableEq, Repr

/-- The registers that live inside one compression only (R33 to R35): the working vector, the message
words and the final flag. -/
structure Working where
  v : Vector Word 16
  m : Vector Word 16
  final : Bool
  deriving DecidableEq, Repr

/-- The block buffer's contents: strictly rising addresses, no entry equal to 0, which is what an
unlisted address reads as (R29, R40; `Memory.wf`). -/
abbrev Memory := List Host.Cell

/-- One engine instance and the host's side of it. `h` to `g` are the spec's (R20); `input` and
`response` are the model's own (logs 1, 2). -/
structure State where
  /-- `H[0..7]` (R21, R38). -/
  h : Vector Word 8
  /-- `T` (R23, R38). -/
  t : Counter
  /-- `CFG[16]`, `VAR` (R25). -/
  var : Variant
  /-- `CFG[15:8]`, `KK` (R25). -/
  kk : BitVec 8
  /-- `CFG[7:0]`, `NN` (R25). -/
  nn : BitVec 8
  /-- `STATUS[3:0]`, `PHASE` (R30). -/
  phase : Phase
  /-- `STATUS[7:4]`, `ERR` (R30): `none` is code 0. -/
  err : Option EngineFault
  /-- `STATUS[15:8]`, `C` (R28, R30). -/
  c : BitVec 8
  /-- `BUF[0..127]` (R27). -/
  buf : Memory
  /-- `V`, `M`, `final` while a compression runs, `none` otherwise (R33 to R35, R40; log 5). -/
  work : Option Working
  /-- `r`, the round index: 0 to `R-1`, "zero whenever no compression is running" (R36). -/
  r : BitVec 4
  /-- `g`, the mixer index: 0 to 7, "zero whenever no compression is running" (R36). -/
  g : BitVec 3
  /-- The host's events still to come, oldest first (log 1). -/
  input : List HostEvent
  /-- The response of the last command executed (log 2). -/
  response : Option Response
  deriving DecidableEq, Repr

/-- Why the model stops. Neither reason is the spec's: each stands for an access to something that does
not exist, in a state that no run reaches (`Inv` of Safety.lean rules it out). -/
inductive Fault
  /-- Raised by `KEYB` and `DATAB` when `C` is an address above 127: `BUF` has no such byte (R27).
  Safe: the model stops where the spec says nothing (log 7). -/
  | noSuchBufferAddress (a : Nat)
  /-- Raised by `RDDIG` when `NN` lets through an index whose word would be above `H[7]` (R182).
  Safe: the model stops where the spec says nothing (log 8). -/
  | noSuchDigestByte (i : Nat)
  deriving DecidableEq, Repr

/-- Why the model gives an instruction no meaning. -/
inductive Refusal
  /-- Raised by an arm of `exec` whose instruction has no meaning yet; none is left. Safe. -/
  | notModelled (mnemonic : String)
  deriving DecidableEq, Repr

/-- The outcome of one command or one step. -/
abbrev Result := Host.Outcome State Fault Refusal

/-- The state after hardware reset (R40, R220; R36 for `r` and `g`): everything zero, `PHASE = IDLE`. No event waits and no
response has been given (logs 1, 2). -/
def State.reset : State where
  h := Vector.replicate 8 0
  t := 0
  var := .B
  kk := 0
  nn := 0
  phase := .idle
  err := none
  c := 0
  buf := []
  work := none
  r := 0
  g := 0
  input := []
  response := none

end Sys2Proof.Machine
end

