-- ==== Sys2Proof/Machine/Flags.lean ====
section
/-! DEFINITION. The engine's only status flags, `PHASE` and `ERR`, as codes (R30, R33), the return codes
(R79) and the words `RDREG` shows `CFG` and `STATUS` as (R25, R30). The engine has no condition codes:
additions wrap and nothing records the carry (R33, R91). -/

namespace Sys2Proof.Machine

/-- The code of a phase in `STATUS[3:0]` (R30). -/
def phaseCode : Phase → BitVec 4
  | .idle => 0
  | .key => 1
  | .data => 2
  | .done => 3
  | .fault => 4

/-- The code of a fault, in `ERR` and as return code (R79, R190). -/
def faultCode : EngineFault → BitVec 4
  | .invalidParameter => 1
  | .sequenceError => 2
  | .illegalCommand => 3
  | .operandRange => 4
  | .lengthOverflow => 5

/-- The code in `STATUS[7:4]` (R30): 0 is no fault. -/
def errCode : Option EngineFault → BitVec 4
  | none => 0
  | some f => faultCode f

/-- `rc = 0`, `OK` (R79). -/
def rcOk : BitVec 4 := 0

/-- `rc = 15`, `Rejected` (R79). -/
def rcRejected : BitVec 4 := 15

/-- `VAR` as a bit: 0 is `B`, 1 is `S` (R25). -/
def varBit : Variant → BitVec 1
  | .B => 0
  | .S => 1

/-- `CFG`, zero-extended: `VAR ++ KK ++ NN` (R25). -/
def cfgWord (s : State) : Word := (0 : BitVec 47) ++ varBit s.var ++ s.kk ++ s.nn

/-- `STATUS`, zero-extended: `C ++ ERR ++ PHASE` (R30). -/
def statusWord (s : State) : Word :=
  (0 : BitVec 48) ++ s.c ++ errCode s.err ++ phaseCode s.phase

end Sys2Proof.Machine
end

