-- ==== Sys2Proof/Machine/Rom.lean ====
section
/-! DEFINITION. The constant ROM (41_constant_rom.md): IV, rotation amounts, SIGMA, and the address map
`RDROM` reads it by. IV and SIGMA are the spec's own general knowledge (log 15). The ROM is no state
(R42 of 10_state.md): nothing writes it. -/

namespace Sys2Proof

/-- `IV_B` (R113). -/
def ivB : Vector (BitVec 64) 8 :=
  #v[0x6a09e667f3bcc908, 0xbb67ae8584caa73b, 0x3c6ef372fe94f82b, 0xa54ff53a5f1d36f1,
     0x510e527fade682d1, 0x9b05688c2b3e6c1f, 0x1f83d9abfb41bd6b, 0x5be0cd19137e2179]

/-- `IV_S` (R114). -/
def ivS : Vector (BitVec 32) 8 :=
  #v[0x6a09e667, 0xbb67ae85, 0x3c6ef372, 0xa54ff53a, 0x510e527f, 0x9b05688c, 0x1f83d9ab, 0x5be0cd19]

/-- The IV constants of a variant (R5, R132). -/
def iv : (var : Variant) → Vector (BitVec var.wordBits) 8
  | .B => ivB
  | .S => ivS

/-- `(R1, R2, R3, R4)`, the rotation amounts of the mixer (R115, R97). -/
def rotations : Variant → Vector Nat 4
  | .B => #v[32, 24, 16, 63]
  | .S => #v[16, 12, 8, 7]

/-- `SIGMA` (R116): row `r` is the message schedule of round `r`; rows 10 and 11 repeat rows 0 and 1. -/
def sigma : Vector (Vector (Fin 16) 16) 12 :=
  #v[#v[0, 1, 2, 3, 4, 5, 6, 7, 8, 9, 10, 11, 12, 13, 14, 15],
     #v[14, 10, 4, 8, 9, 15, 13, 6, 1, 12, 0, 2, 11, 7, 5, 3],
     #v[11, 8, 12, 0, 5, 2, 15, 13, 10, 14, 3, 6, 7, 1, 9, 4],
     #v[7, 9, 3, 1, 13, 12, 11, 14, 2, 6, 5, 10, 4, 0, 15, 8],
     #v[9, 0, 5, 7, 2, 4, 10, 15, 14, 1, 11, 12, 6, 8, 3, 13],
     #v[2, 12, 6, 10, 0, 11, 8, 3, 4, 13, 7, 5, 15, 14, 1, 9],
     #v[12, 5, 1, 15, 14, 13, 4, 10, 0, 7, 6, 3, 9, 2, 8, 11],
     #v[13, 11, 7, 14, 12, 1, 3, 9, 5, 0, 15, 4, 8, 6, 2, 10],
     #v[6, 15, 14, 9, 11, 3, 0, 8, 12, 2, 13, 7, 1, 4, 10, 5],
     #v[10, 2, 8, 4, 7, 6, 1, 5, 15, 11, 9, 14, 3, 12, 13, 0],
     #v[0, 1, 2, 3, 4, 5, 6, 7, 8, 9, 10, 11, 12, 13, 14, 15],
     #v[14, 10, 4, 8, 9, 15, 13, 6, 1, 12, 0, 2, 11, 7, 5, 3]]

/-- `ROM(a)`, zero-extended to 64 bits (R117); `none` at an unassigned address. -/
def rom (a : Nat) : Option Word :=
  if h : a < 0x008 then some ivB[a]
  else if h : a - 0x008 < 8 then some (ivS[a - 0x008].setWidth 64)
  else if h : a - 0x010 < 4 then some (BitVec.ofNat 64 (rotations .B)[a - 0x010])
  else if h : a - 0x014 < 4 then some (BitVec.ofNat 64 (rotations .S)[a - 0x014])
  else if a < 0x100 then none
  else if h : (a - 0x100) / 16 < 12 then
    some (BitVec.ofNat 64 (sigma[(a - 0x100) / 16][(a - 0x100) % 16]'(Nat.mod_lt _ (by decide))).val)
  else none

end Sys2Proof
end

