-- ==== Sys2Proof/Machine/Mixer.lean ====
section
/-! DEFINITION. Word arithmetic and the mixer G (40_mixer_g.md). Arithmetic is on words of exactly `W`
bits (R90 to R92): `BitVec w`, whose addition wraps modulo `2^w`. -/

namespace Sys2Proof

/-- `rotr_W(a, n)` for `0 < n < W` (R94); for other `n`, which nothing uses, what the formula gives
(log 24). -/
def rotr {w : Nat} (a : BitVec w) (n : Nat) : BitVec w := (a >>> n) ||| (a <<< (w - n))

/-- An 8-word register file from its elements. -/
def vec8 {α : Type} (f : Fin 8 → α) : Vector α 8 :=
  #v[f 0, f 1, f 2, f 3, f 4, f 5, f 6, f 7]

/-- A 16-word register file from its elements. -/
def vec16 {α : Type} (f : Fin 16 → α) : Vector α 16 :=
  #v[f 0, f 1, f 2, f 3, f 4, f 5, f 6, f 7, f 8, f 9, f 10, f 11, f 12, f 13, f 14, f 15]

/-- The mixer `G_var(v, a, b, c, d, x, y)` (R96): eight lines in order, each reading what the earlier
lines wrote. `rot` is `(R1, R2, R3, R4)` of the variant (R97). With equal positions it is still the
sequential result (R100; log 16); the Compressor never calls it so. -/
def mixG {w : Nat} (rot : Vector Nat 4) (v : Vector (BitVec w) 16) (a b c d : Fin 16)
    (x y : BitVec w) : Vector (BitVec w) 16 :=
  let v := v.set a (v[a] + v[b] + x)
  let v := v.set d (rotr (v[d] ^^^ v[a]) rot[0])
  let v := v.set c (v[c] + v[d])
  let v := v.set b (rotr (v[b] ^^^ v[c]) rot[1])
  let v := v.set a (v[a] + v[b] + y)
  let v := v.set d (rotr (v[d] ^^^ v[a]) rot[2])
  let v := v.set c (v[c] + v[d])
  let v := v.set b (rotr (v[b] ^^^ v[c]) rot[3])
  v

end Sys2Proof
end

