-- ==== Sys2Proof/Machine/Compressor.lean ====
section
/-! DEFINITION. The Compressor as the pure function `F_var(h, block, t, final)` (42_compressor_f.md).
How the engine's sequencer runs it over its registers stands in Machine/Sequencer.lean. -/

namespace Sys2Proof

/-- The four positions one mixer call works on. -/
structure MixGroup where
  a : Fin 16
  b : Fin 16
  c : Fin 16
  d : Fin 16
  deriving DecidableEq, Repr

/-- The eight index groups (R136): four columns, then four diagonals. From the spec's general
knowledge (log 15). -/
def mixGroups : Vector MixGroup 8 :=
  #v[⟨0, 4, 8, 12⟩, ⟨1, 5, 9, 13⟩, ⟨2, 6, 10, 14⟩, ⟨3, 7, 11, 15⟩,
     ⟨0, 5, 10, 15⟩, ⟨1, 6, 11, 12⟩, ⟨2, 7, 8, 13⟩, ⟨3, 4, 9, 14⟩]

/-- The mixer calls of a round in order (R134). -/
def mixOrder : List (Fin 8) := [0, 1, 2, 3, 4, 5, 6, 7]

/-- Mixer call `g` of round `r`, with `x = M[SIGMA[r][2g]]` and `y = M[SIGMA[r][2g+1]]` (R134, R136). The
spec has rounds 0 to 9 only in `S`; for `r` of 10 and 11 there the model takes rows 10 and 11 of SIGMA
(log 23). -/
def mixCall (var : Variant) (m : Vector (BitVec var.wordBits) 16) (r : Fin 12) (g : Fin 8)
    (v : Vector (BitVec var.wordBits) 16) : Vector (BitVec var.wordBits) 16 :=
  let p := mixGroups[g]
  let row := sigma[r]
  mixG (rotations var) v p.a p.b p.c p.d m[row[2 * g.val]] m[row[2 * g.val + 1]]

/-- `Round_var(v, m, r)`, for `r < R` (R134); beyond that, in `S`, see log 23. -/
def mixRound (var : Variant) (m : Vector (BitVec var.wordBits) 16) (r : Fin 12)
    (v : Vector (BitVec var.wordBits) 16) : Vector (BitVec var.wordBits) 16 :=
  mixOrder.foldl (fun v g => mixCall var m r g v) v

/-- Steps 1 and 2: state and IV into the working vector, the counter's halves into words 12 and 13,
all-ones into word 14 of the last block (R132, R133). The spec has `t < 2^TW` (R130); beyond that the high
half is taken modulo `2^W` (log 22). -/
def startVector (var : Variant) (h : Vector (BitVec var.wordBits) 8) (t : Nat) (final : Bool) :
    Vector (BitVec var.wordBits) 16 :=
  let k := iv var
  #v[h[0], h[1], h[2], h[3], h[4], h[5], h[6], h[7],
     k[0], k[1], k[2], k[3],
     k[4] ^^^ BitVec.ofNat _ (t % 2 ^ var.wordBits),
     k[5] ^^^ BitVec.ofNat _ (t / 2 ^ var.wordBits),
     if final then k[6] ^^^ BitVec.allOnes _ else k[6],
     k[7]]

/-- The little-endian integer of a byte sequence (R10, R52). -/
def leNat : List Byte → Nat
  | [] => 0
  | b :: bs => b.toNat + 256 * leNat bs

/-- Step 3: the block as 16 little-endian words (R131, R52). A block has `bb` bytes (R143); bytes a
shorter list lacks count as 0, which nothing uses (log 17). -/
def decodeBlock (var : Variant) (block : List Byte) : Vector (BitVec var.wordBits) 16 :=
  vec16 fun i => BitVec.ofNat _ (leNat ((block.drop (i.val * var.wordBytes)).take var.wordBytes))

/-- Step 5: `h[i] ^ v[i] ^ v[8+i]` (R138). -/
def feedForward {w : Nat} (h : Vector (BitVec w) 8) (v : Vector (BitVec w) 16) :
    Vector (BitVec w) 8 :=
  vec8 fun i => h[i] ^^^ v[i.val] ^^^ v[8 + i.val]

/-- The Compressor `F_var(h, block, t, final)` (R137), for `t < 2^TW` (R130) and a block of `bb` bytes;
outside these see logs 22 and 17. -/
def compressF (var : Variant) (h : Vector (BitVec var.wordBits) 8) (block : List Byte) (t : Nat)
    (final : Bool) : Vector (BitVec var.wordBits) 8 :=
  let m := decodeBlock var block
  feedForward h (var.roundIndices.foldl (fun v r => mixRound var m r v) (startVector var h t final))

end Sys2Proof
end

