-- ==== Sys2Proof/Machine/Hash.lean ====
section
/-! DEFINITION. The whole hash as a pure function (R154, R156, R169, R172 of 43_driver_commands.md,
R53 of 20_memory.md), the meaning a whole invocation has to agree with (R173). -/

namespace Sys2Proof

/-- `PW(nn, kk)`, the parameter word (R154); for lengths no `INIT` accepts see log 24. -/
def paramWord (nn kk : Nat) : BitVec 32 :=
  0x01010000 ^^^ (BitVec.ofNat 32 kk <<< 8) ^^^ BitVec.ofNat 32 nn

/-- `Init_var(nn, kk)` (R156): IV with the parameter word folded into word 0. -/
def initHash (var : Variant) (nn kk : Nat) : Vector (BitVec var.wordBits) 8 :=
  let k := iv var
  k.set 0 (k[0] ^^^ (paramWord nn kk).setWidth var.wordBits)

/-- The lengths an invocation may have (R155, R191). -/
def legalLengths (var : Variant) (nn kk : Nat) : Bool :=
  1 ≤ nn && nn ≤ var.nnMax && kk ≤ var.kkMax

/-- One compression event (R169): the block, the counter and the final flag. -/
structure BlockEvent where
  block : List Byte
  t : Nat
  final : Bool
  deriving DecidableEq, Repr

/-- The absorbed stream `S` (R169): the key padded to a block if there is one, then the data. -/
def absorbedStream (var : Variant) (key data : List Byte) : List Byte :=
  (if key = [] then [] else key ++ List.replicate (var.blockBytes - key.length) 0) ++ data

/-- `N = max(1, ceil(L / bb))`, the number of compressions (R169). -/
def blockCount (var : Variant) (length : Nat) : Nat :=
  max 1 ((length + var.blockBytes - 1) / var.blockBytes)

/-- Block `i` of the stream, zero-padded to `bb` bytes (R169). -/
def blockAt (var : Variant) (stream : List Byte) (i : Nat) : List Byte :=
  let bytes := (stream.drop (i * var.blockBytes)).take var.blockBytes
  bytes ++ List.replicate (var.blockBytes - bytes.length) 0

/-- The compression events of an invocation, in order (R169). -/
def blockEvents (var : Variant) (key data : List Byte) : List BlockEvent :=
  let stream := absorbedStream var key data
  let last := blockCount var stream.length - 1
  (List.range last).map (fun i => ⟨blockAt var stream i, (i + 1) * var.blockBytes, false⟩) ++
    [⟨blockAt var stream last, stream.length, true⟩]

/-- The state after a list of compression events. -/
def compressEvents (var : Variant) (h : Vector (BitVec var.wordBits) 8) (es : List BlockEvent) :
    Vector (BitVec var.wordBits) 8 :=
  es.foldl (fun h e => compressF var h e.block e.t e.final) h

/-- `LE_n(x)`: the `n` bytes of `x`, least significant first (R53). -/
def leBytes {w : Nat} (n : Nat) (x : BitVec w) : List Byte :=
  (List.range n).map fun k => (x >>> (8 * k)).setWidth 8

/-- `LE_n(H[0]) ++ ... ++ LE_n(H[7])` (R53, R172). -/
def serialize {w : Nat} (n : Nat) (h : Vector (BitVec w) 8) : List Byte :=
  h.toList.flatMap (leBytes n)

/-- `Hash(data, key, var, nn)` (R172); `none` is the failure `InvalidParameter`. The spec defines it for
`L < 2^TW` only; for a longer stream it is the model's choice that there is a digest, with each counter's
high half modulo `2^W` (log 22). -/
def blake2 (data key : List Byte) (var : Variant) (nn : Nat) : Option (List Byte) :=
  if legalLengths var nn key.length then
    let h := compressEvents var (initHash var nn key.length) (blockEvents var key data)
    some ((serialize var.wordBytes h).take nn)
  else none

end Sys2Proof
end

