-- ==== Sys2Proof/Machine/Memory.lean ====
section
/-! DEFINITION. The block buffer `BUF` as byte memory (R10 of 00_scope.md, R27 of 10_state.md). -/

namespace Sys2Proof.Machine

/-- `BUF` has addresses 0 to 127 (R27). -/
def bufSize : Nat := 128

/-- What an address that is not listed reads as: `BUF` is zero at reset and whenever it is cleared
(R40, R29). -/
def unlistedByte : Byte := 0

/-- The byte at an address. `BUF` has no address above 127 (R27), and no command reads there; that the
function is total and gives 0 there, as at any unlisted address, is the model's choice (log 25). -/
def Memory.read : Memory → Nat → Byte
  | [], _ => unlistedByte
  | (a, b) :: m, x => if a = x then b else Memory.read m x

/-- Put a byte at an address; writing what an unlisted address reads as removes the entry.
The commands write below 128 only (`absorb`; log 7); the function alone takes any address (log 25). -/
def Memory.write : Memory → Nat → Byte → Memory
  | [], x, v => if v = unlistedByte then [] else [(x, v)]
  | (a, b) :: m, x, v =>
    if x < a then (if v = unlistedByte then (a, b) :: m else (x, v) :: (a, b) :: m)
    else if x = a then (if v = unlistedByte then m else (x, v) :: m)
    else (a, b) :: Memory.write m x v

/-- The canonical form: strictly rising addresses of `BUF`, no entry equal to the unlisted byte. -/
abbrev Memory.wf (m : Memory) : Prop :=
  m.Pairwise (fun x y => x.1 < y.1) ∧ ∀ x ∈ m, x.2 ≠ unlistedByte ∧ x.1 < bufSize

/-- `MemRead(a, n)`: the little-endian integer of `n` bytes (R10); bytes above `BUF[127]` count as 0
(log 25). -/
def memRead (m : Memory) (a : Nat) : Nat → Nat
  | 0 => 0
  | n + 1 => (Memory.read m a).toNat + 256 * memRead m (a + 1) n

/-- `BUF[a..a+n-1]` as a byte sequence; bytes above `BUF[127]` are 0 (log 25). -/
def bufBytes (m : Memory) (a : Nat) : Nat → List Byte
  | 0 => []
  | n + 1 => Memory.read m a :: bufBytes m (a + 1) n

end Sys2Proof.Machine
end

