-- ==== Sys2Proof/Machine/Sequencer.lean ====
section
/-! DEFINITION. The Compressor as the engine runs it: `V`, `M`, `final`, `r` and `g` are registers, each
tick makes one mixer call (R34 to R36 of 10_state.md, R135 of 42_compressor_f.md), and a word is 64 bits
of storage of which variant `S` uses the low 32 (R38; log 6). That it computes the pure function `F` is
a statement about the model. -/

namespace Sys2Proof.Machine

/-- The `W` bits of a register that take part in computation (R38). -/
def load (var : Variant) (x : Word) : BitVec var.wordBits := x.setWidth var.wordBits

/-- A `W`-bit word in 64-bit storage: the other bits are 0 (R38). -/
def store (var : Variant) (x : BitVec var.wordBits) : Word := x.setWidth 64

/-- `load` of 8 registers. -/
def load8 (var : Variant) (h : Vector Word 8) : Vector (BitVec var.wordBits) 8 :=
  vec8 fun i => load var h[i]

/-- `store` of 8 registers. -/
def store8 (var : Variant) (h : Vector (BitVec var.wordBits) 8) : Vector Word 8 :=
  vec8 fun i => store var h[i]

/-- `load` of 16 registers. -/
def load16 (var : Variant) (v : Vector Word 16) : Vector (BitVec var.wordBits) 16 :=
  vec16 fun i => load var v[i]

/-- `store` of 16 registers. -/
def store16 (var : Variant) (v : Vector (BitVec var.wordBits) 16) : Vector Word 16 :=
  vec16 fun i => store var v[i]

/-- The message words: `M[i] = MemRead(i * W/8, W/8)` (R35, R131). -/
def messageWords (var : Variant) (buf : Memory) : Vector Word 16 :=
  vec16 fun i => BitVec.ofNat 64 (memRead buf (i.val * var.wordBytes) var.wordBytes)

/-- The registers the sequencer's ticks read and write: `V`, `M`, `r`, `g` (R34 to R36). -/
structure Sequencer where
  v : Vector Word 16
  m : Vector Word 16
  r : BitVec 4
  g : BitVec 3
  deriving DecidableEq, Repr

/-- The round index after mixer call 7 of round `r`: the next round (R135). That the last
round's call 7 itself puts it back to 0 is the model's choice (log 18). -/
def nextRound (var : Variant) (r : BitVec 4) : BitVec 4 :=
  if r.toNat + 1 = var.rounds then 0 else r + 1

/-- One tick of the sequencer: mixer call `g` of round `r`, then the next `g`, and after call 7 the next
round (R135, R36). With an `r` that no round has, which no run reaches, nothing (log 18). -/
def tick (var : Variant) (q : Sequencer) : Sequencer :=
  if hr : q.r.toNat < var.rounds then
    let r : Fin 12 := ⟨q.r.toNat, Nat.lt_of_lt_of_le hr var.rounds_le⟩
    let g : Fin 8 := q.g.toFin
    { q with
      v := store16 var (mixCall var (load16 var q.m) r g (load16 var q.v))
      r := if g = 7 then nextRound var q.r else q.r
      g := q.g + 1 }
  else q

/-- `n` ticks. -/
def ticks (var : Variant) : Nat → Sequencer → Sequencer
  | 0, q => q
  | n + 1, q => ticks var n (tick var q)

/-- Steps 1 to 3 (R132, R133, R131): `V` from `H`, the IV, `T` and the flag, `M` from `BUF`. -/
def startWorking (final : Bool) (s : State) : Working where
  v := store16 s.var (startVector s.var (load8 s.var s.h) s.t.toNat final)
  m := messageWords s.var s.buf
  final := final

/-- Begin a compression: the transient registers come to life, the calls start at `(r, g) = (0, 0)`
(R135). -/
def startCompression (final : Bool) (s : State) : State :=
  { s with work := some (startWorking final s), r := 0, g := 0 }

/-- Step 4: the `8 * R` mixer calls (R135). They leave `r` and `g` at 0 (log 18), so both are 0 when the
compression is over (R36). -/
def runCompression (s : State) : State :=
  match s.work with
  | some w =>
    let q := ticks s.var (8 * s.var.rounds) { v := w.v, m := w.m, r := s.r, g := s.g }
    { s with work := some { w with v := q.v }, r := q.r, g := q.g }
  | none => s

/-- Step 5 (R138): feed forward into `H`; `V`, `M` and the flag are dead. -/
def finishCompression (s : State) : State :=
  match s.work with
  | some w => { s with h := store8 s.var (feedForward (load8 s.var s.h) (load16 s.var w.v)), work := none }
  | none => s

/-- One compression, `H <- F(H, BUF, T, final)` (R137). -/
def compress (final : Bool) (s : State) : State :=
  finishCompression (runCompression (startCompression final s))

end Sys2Proof.Machine
end

