-- ==== Sys2Proof/Machine/Ops.lean ====
section
/-! DEFINITION. The operations the commands share: responding, taking a fault, rejecting, the phase
check, absorbing a byte, a compression event. -/

namespace Sys2Proof.Machine

/-- `respond(rc, data)` (R78 of 30_encoding.md). -/
def respond (rc : BitVec 4) (data : Word) (s : State) : State :=
  { s with response := some ⟨rc, data⟩ }

/-- The registers and the buffer at zero, with the given phase and `ERR`; what reset (R40), `RESET`
(R153) and fault entry (R196) have in common. -/
def zeroed (phase : Phase) (err : Option EngineFault) (s : State) : State :=
  { s with
    h := Vector.replicate 8 0
    t := 0
    var := .B
    kk := 0
    nn := 0
    phase := phase
    err := err
    c := 0
    buf := [] }

/-- Fault entry, `raise f` (R196 of 60_exceptions.md): everything zero, `ERR <- f`, `PHASE <- FAULT`,
response `(code, 0)`. Nothing is saved; there is no return but `RESET` (R200). -/
def raiseFault (f : EngineFault) (s : State) : State :=
  respond (faultCode f) 0 (zeroed .fault (some f) s)

/-- A word that arrives in `FAULT` and may not execute there: response `(15, 0)`, nothing changes
(R198). -/
def reject (s : State) : State := respond rcRejected 0 s

/-- The way out of `FAULT` and of everything else: the reset state (R153, R200). The host's events still
to come stay, and the response `(0, 0)` is given. -/
def resetEngine (s : State) : State :=
  respond rcOk 0 { zeroed .idle none s with work := none, r := 0, g := 0 }

/-- Hardware reset (R220): the reset state; no response is given. -/
def hardwareReset (s : State) : State := { State.reset with input := s.input }

/-- Run `k` unless the engine is in `FAULT`, where the word is rejected (R198, R199 item 1). -/
def unlessFaulted (s : State) (k : Result) : Result :=
  if s.phase = .fault then .next (reject s) else k

/-- Run `k` in the permitted phases; in `FAULT` reject, in any other phase `SequenceError`
(R151, R192, R199). -/
def permittedIn (phases : List Phase) (s : State) (k : Result) : Result :=
  unlessFaulted s (if s.phase ∈ phases then k else .next (raiseFault .sequenceError s))

/-- What an undecodable word does: `IllegalCommand` before any phase check (R193), rejected in `FAULT`
(R198). -/
def illegalWord (s : State) : State :=
  if s.phase = .fault then reject s else raiseFault .illegalCommand s

/-- `MemWrite(C, 1, byte); C <- C + 1` (R160, R164): `none` when `BUF` has no byte `C` (log 7). -/
def absorb (byte : Byte) (s : State) : Option State :=
  if s.c.toNat < bufSize then
    some { s with buf := Memory.write s.buf s.c.toNat byte, c := s.c + 1 }
  else none

/-- The `bb` bytes the Compressor is given (R130). -/
def blockOf (s : State) : List Byte := bufBytes s.buf 0 s.var.blockBytes

/-- Advancing `T` by `n` would make it reach `2^TW` (R195). -/
def counterWouldOverflow (n : Nat) (s : State) : Bool :=
  2 ^ s.var.counterBits ≤ s.t.toNat + n

/-- A compression event (R164, R167): `T <- T + n`, `H <- F(H, BUF, T, final)`, `BUF` cleared, `C <- 0`. -/
def compressEvent (final : Bool) (n : Nat) (s : State) : State :=
  { compress final { s with t := s.t + BitVec.ofNat 128 n } with buf := [], c := 0 }

end Sys2Proof.Machine
end

