-- ==== Sys2Proof/Machine/Operands.lean ====
section
/-! DEFINITION. The operand forms: register numbers, digest byte numbers, ROM addresses and the lengths
of `INIT` (R77 of 30_encoding.md). -/

namespace Sys2Proof.Machine

/-- The registers `RDREG` can name (R180 of 44_readout_commands.md). -/
inductive Reg
  | hash (i : Fin 8)
  | tLo
  | tHi
  | cfg
  | status
  deriving DecidableEq, Repr

/-- The register of a register number; `none` for 12 and above (R180). -/
def regOf (idx : Nat) : Option Reg :=
  if h : idx < 8 then some (.hash ⟨idx, h⟩)
  else if idx = 8 then some .tLo
  else if idx = 9 then some .tHi
  else if idx = 10 then some .cfg
  else if idx = 11 then some .status
  else none

/-- The value `RDREG` returns (R180; logs 6, 9). -/
def readReg (s : State) : Reg → Word
  | .hash i => s.h[i]
  | .tLo => s.t.setWidth 64
  | .tHi => (s.t >>> 64).setWidth 64
  | .cfg => cfgWord s
  | .status => statusWord s

/-- `DigestByte(i) = (H[i div n] >> (8 * (i mod n))) mod 256` with `n = W/8` (R182); `none` when there is
no word `i div n` (log 8). -/
def digestByte (s : State) (i : Nat) : Option Byte :=
  if h : i / s.var.wordBytes < 8 then
    some ((s.h[i / s.var.wordBytes] >>> (8 * (i % s.var.wordBytes))).setWidth 8)
  else none

end Sys2Proof.Machine
end

