-- ==== Sys2Proof/Machine/Driver.lean ====
section
/-! DEFINITION. The block iterator's commands `RESET`, `INIT`, `KEYB`, `DATAB`, `FINAL`
(43_driver_commands.md). -/

namespace Sys2Proof.Machine

/-- `RESET` (R153): the reset state, in every phase. -/
def execReset (s : State) : Result := .next (resetEngine s)

/-- The writes of an accepted `INIT` (R155). -/
def beginInvocation (var : Variant) (nn kk : Nat) (s : State) : State :=
  { s with
    var := var
    nn := BitVec.ofNat 8 nn
    kk := BitVec.ofNat 8 kk
    h := store8 var (initHash var nn kk)
    t := 0
    buf := []
    c := 0
    phase := if 0 < kk then .key else .data }

/-- `INIT var, nn, kk` (R155): permitted in `IDLE` and `DONE`; the lengths are checked before any
write. -/
def execInit (var : Variant) (nn kk : Nat) (s : State) : Result :=
  permittedIn [.idle, .done] s <|
    if legalLengths var nn kk then .next (respond rcOk 0 (beginInvocation var nn kk s))
    else .next (raiseFault .invalidParameter s)

/-- After the last key byte the key block counts as full (R161): `C <- bb`, `PHASE <- DATA`. -/
def closeKeyBlock (s : State) : State :=
  if s.c = s.kk then { s with c := BitVec.ofNat 8 s.var.blockBytes, phase := .data } else s

/-- `KEYB byte` (R160): permitted in `KEY`. -/
def execKeyb (byte : Byte) (s : State) : Result :=
  permittedIn [.key] s <|
    match absorb byte s with
    | some s' => .next (respond rcOk 0 (closeKeyBlock s'))
    | none => .fault (.noSuchBufferAddress s.c.toNat)

/-- `MemWrite(C, 1, byte); C <- C + 1; respond(0, 0)`, the end of `DATAB` (R164). -/
def absorbData (byte : Byte) (s : State) : Result :=
  match absorb byte s with
  | some s' => .next (respond rcOk 0 s')
  | none => .fault (.noSuchBufferAddress s.c.toNat)

/-- `DATAB byte` (R164): permitted in `DATA`; a full block that waits is compressed first, as a block
that is not the last (R165). -/
def execDatab (byte : Byte) (s : State) : Result :=
  permittedIn [.data] s <|
    if s.c.toNat = s.var.blockBytes then
      if counterWouldOverflow s.var.blockBytes s then .next (raiseFault .lengthOverflow s)
      else absorbData byte (compressEvent false s.var.blockBytes s)
    else absorbData byte s

/-- `FINAL` (R167): permitted in `DATA`; `T` advances by the bytes that wait, not by the padding. -/
def execFinal (s : State) : Result :=
  permittedIn [.data] s <|
    if counterWouldOverflow s.c.toNat s then .next (raiseFault .lengthOverflow s)
    else .next (respond rcOk 0 { compressEvent true s.c.toNat s with phase := .done })

end Sys2Proof.Machine
end

