-- ==== Sys2Proof/Machine/Readout.lean ====
section
/-! DEFINITION. The read commands `RDREG`, `RDDIG` (44_readout_commands.md) and `RDROM`
(41_constant_rom.md). None changes the engine's state when it succeeds (R59 of 20_memory.md). -/

namespace Sys2Proof.Machine

/-- `RDREG idx` (R181): executes in every phase, `FAULT` included; above 11 it is `OperandRange`, or
rejected in `FAULT`. -/
def execRdreg (idx : Nat) (s : State) : Result :=
  match regOf idx with
  | some r => .next (respond rcOk (readReg s r) s)
  | none => unlessFaulted s (.next (raiseFault .operandRange s))

/-- `RDDIG idx` (R184): permitted in `DONE`, for `idx < NN`. -/
def execRddig (idx : Nat) (s : State) : Result :=
  permittedIn [.done] s <|
    if s.nn.toNat ≤ idx then .next (raiseFault .operandRange s)
    else
      match digestByte s idx with
      | some b => .next (respond rcOk (b.setWidth 64) s)
      | none => .fault (.noSuchDigestByte idx)

/-- `RDROM addr` (R118): permitted in every phase but `FAULT`; an unassigned address is
`OperandRange`. -/
def execRdrom (addr : Nat) (s : State) : Result :=
  unlessFaulted s <|
    match rom addr with
    | some x => .next (respond rcOk x s)
    | none => .next (raiseFault .operandRange s)

end Sys2Proof.Machine
end

