-- ==== Sys2Proof/Machine/Dispatch.lean ====
section
/-! DEFINITION. One arm for each command. -/

namespace Sys2Proof.Machine

-- The meaning of one command (R72 of 30_encoding.md names the rule of each).
def exec (i : Instr) (s : State) : Host.Outcome State Fault Refusal :=
  match i with
  | .reset => Sys2Proof.Machine.execReset s
  | .init var nn kk => Sys2Proof.Machine.execInit var nn kk s
  | .keyb byte => Sys2Proof.Machine.execKeyb byte s
  | .datab byte => Sys2Proof.Machine.execDatab byte s
  | .final => Sys2Proof.Machine.execFinal s
  | .rdreg idx => Sys2Proof.Machine.execRdreg idx s
  | .rddig idx => Sys2Proof.Machine.execRddig idx s
  | .rdrom addr => Sys2Proof.Machine.execRdrom addr s

end Sys2Proof.Machine
end

