-- ==== Sys2Proof/Config.lean ====
section
/-! DEFINITION. What the spec leaves to the implementation: its open parameters (R6 of 00_scope.md).
The spec has no free value (93_implementation_defined.md, end of section 1), so none stands here.
`PortBinding`, the third open parameter, is signals and timing and has no counterpart (log 12). -/

namespace Sys2Proof.Config

/-- `CmdByteOrder` (R56 of 20_memory.md): lane `i` of a command word (bits `8i+7` to `8i`) travels at
position `cmdByteOrder i` of a byte-wide transport. Nothing is known of it but that it is an order.
No step of the machine depends on it (log 10). -/
opaque cmdByteOrder : Equiv.Perm (Fin 4)

/-- `N_INST - 1` (R6 of 00_scope.md, R212 of 60_exceptions.md): how many engines stand beside the
first. Nothing is known of it (log 11). -/
opaque otherInstances : Nat

/-- `N_INST`, at least 1 (92_eei_decisions.md D27). -/
def nInst : Nat := otherInstances + 1

end Sys2Proof.Config
end

