-- ==== Sys2Proof/WellFormed.lean ====
section
/-! DEFINITION. Which commands can be written as a command word: the operand ranges of R77 and R80 of
30_encoding.md. An operand outside its range "cannot be encoded and is an assembler error, not an
engine fault" (R80); the narrower ranges an engine accepts are checked by the commands. -/

namespace Sys2Proof

/-- `nn` and `kk` fit 8 bits, a register or digest index fits 8 bits, a ROM address fits 9 bits. -/
def Instr.wf : Instr → Bool
  | .reset => true
  | .init _ nn kk => nn < 256 && kk < 256
  | .keyb _ => true
  | .datab _ => true
  | .final => true
  | .rdreg idx => idx < 256
  | .rddig idx => idx < 256
  | .rdrom addr => addr < 512

end Sys2Proof
end

