-- ==== Sys2Proof/Decode.lean ====
section
/-! DEFINITION. From command words to commands and back (R70 to R77 of 30_encoding.md): a total decoder
that rejects by name, the encoder, the opcode map as match and mask, and the byte-wide transport that
the spec leaves open. -/

namespace Sys2Proof

/-- Why a word is no command. Either way the engine raises `IllegalCommand` (R73, R193). -/
inductive Illegal
  /-- Bits 31:24 are no assigned opcode (R73 a). -/
  | unassignedOpcode (op : BitVec 8)
  /-- An assigned opcode with a reserved bit set (R73 b). -/
  | reservedBits (op : BitVec 8)
  /-- A byte string that is not the four bytes of one word; only `decodeBytes` says so, and that it
  rejects such a string is the model's choice (log 10). -/
  | notOneWord (bytes : Nat)
  deriving DecidableEq, Repr

/-- What a word decodes to. -/
inductive Decoded
  | command (i : Instr)
  | illegal (why : Illegal)
  deriving DecidableEq, Repr

/-- Bits `lo + len - 1` to `lo` of a command word. -/
def bits (w : CmdWord) (lo len : Nat) : BitVec len := w.extractLsb' lo len

/-- `var` as the bit of the word (R77): 0 is `B`, 1 is `S`. -/
def variantOfBit (b : BitVec 1) : Variant := if b = 0 then .B else .S

/-- The bit of the word for `var` (R77). -/
def bitOfVariant : Variant → BitVec 1
  | .B => 0
  | .S => 1

/-- A command, or the opcode's reserved bits are not all 0. -/
def commandIf (reservedZero : Prop) [Decidable reservedZero] (op : BitVec 8) (i : Instr) : Decoded :=
  if reservedZero then .command i else .illegal (.reservedBits op)

/-- R76: decoding is total on all 2^32 words and looks at nothing but the word. -/
def decode (w : CmdWord) : Decoded :=
  let op := bits w 24 8
  if op = 0x01 then commandIf (bits w 0 24 = 0) op .reset
  else if op = 0x02 then
    commandIf (bits w 17 7 = 0) op
      (.init (variantOfBit (bits w 16 1)) (bits w 0 8).toNat (bits w 8 8).toNat)
  else if op = 0x03 then commandIf (bits w 8 16 = 0) op (.keyb (bits w 0 8))
  else if op = 0x04 then commandIf (bits w 8 16 = 0) op (.datab (bits w 0 8))
  else if op = 0x05 then commandIf (bits w 0 24 = 0) op .final
  else if op = 0x09 then commandIf (bits w 8 16 = 0) op (.rdreg (bits w 0 8).toNat)
  else if op = 0x0A then commandIf (bits w 8 16 = 0) op (.rddig (bits w 0 8).toNat)
  else if op = 0x0B then commandIf (bits w 9 15 = 0) op (.rdrom (bits w 0 9).toNat)
  else .illegal (.unassignedOpcode op)

/-- The opcode of a command (R72). -/
def opcode : Instr → Nat
  | .reset => 0x01
  | .init .. => 0x02
  | .keyb _ => 0x03
  | .datab _ => 0x04
  | .final => 0x05
  | .rdreg _ => 0x09
  | .rddig _ => 0x0A
  | .rdrom _ => 0x0B

/-- Bits 23:0 of a command's word: the formats `Z`, `P`, `B`, `I` and `A` of R71, each field at its
lowest bit. The fields are disjoint, so their sum is their or (R76, R83). -/
def operandField : Instr → Nat
  | .reset => 0
  | .init var nn kk => (bitOfVariant var).toNat * 2 ^ 16 + kk % 2 ^ 8 * 2 ^ 8 + nn % 2 ^ 8
  | .keyb byte => byte.toNat
  | .datab byte => byte.toNat
  | .final => 0
  | .rdreg idx => idx % 2 ^ 8
  | .rddig idx => idx % 2 ^ 8
  | .rdrom addr => addr % 2 ^ 9

/-- The word of a well-formed command: `opcode << 24` with the fields at their positions (R76). An operand
that does not fit its field has no word (R80): `assemble` refuses it, `encode` alone drops its high bits
(log 13). -/
def encode (i : Instr) : CmdWord := BitVec.ofNat 32 (opcode i * 2 ^ 24 + operandField i)

/-- One row of the opcode map: a word is that command exactly when `w & mask = match` (R72). -/
structure OpcodeRow where
  pattern : CmdWord
  mask : CmdWord
  deriving DecidableEq, Repr

/-- The row of R72 a command stands in. -/
def opcodeRow : Instr → OpcodeRow
  | .reset => ⟨0x01000000, 0xFFFFFFFF⟩
  | .init .. => ⟨0x02000000, 0xFFFE0000⟩
  | .keyb _ => ⟨0x03000000, 0xFFFFFF00⟩
  | .datab _ => ⟨0x04000000, 0xFFFFFF00⟩
  | .final => ⟨0x05000000, 0xFFFFFFFF⟩
  | .rdreg _ => ⟨0x09000000, 0xFFFFFF00⟩
  | .rddig _ => ⟨0x0A000000, 0xFFFFFF00⟩
  | .rdrom _ => ⟨0x0B000000, 0xFFFFFE00⟩

/-- The eight rows of R72. -/
def opcodeMap : List OpcodeRow :=
  [.reset, .init .B 0 0, .keyb 0, .datab 0, .final, .rdreg 0, .rddig 0, .rdrom 0].map opcodeRow

/-- The bytes of a word on a byte-wide transport of the given order, first byte first. -/
def bytesOfWord (order : Equiv.Perm (Fin 4)) (w : CmdWord) : List Byte :=
  let lane (position : Fin 4) : Byte := bits w (8 * (order.symm position).val) 8
  [lane 0, lane 1, lane 2, lane 3]

/-- The word whose four bytes arrived, the first byte first, on a byte-wide transport. -/
def wordOfBytes (order : Equiv.Perm (Fin 4)) (arrived : Vector Byte 4) : CmdWord :=
  arrived[order 3] ++ arrived[order 2] ++ arrived[order 1] ++ arrived[order 0]

/-- Decoding of any byte string of a byte-wide transport: one word, or a rejection by name of any string
that is not exactly four bytes long, on which the spec is silent (DESIGN CHOICE, log 10). The spec's rules
speak of 32-bit words only (R56, R70), and no step calls this. -/
def decodeBytes (order : Equiv.Perm (Fin 4)) : List Byte → Decoded
  | [b0, b1, b2, b3] => decode (wordOfBytes order #v[b0, b1, b2, b3])
  | bytes => .illegal (.notOneWord bytes.length)

/-- `nbits` low bits of `w` as a command word; the bits above are 0. -/
def tableWord (nbits w : Nat) : CmdWord := BitVec.ofNat 32 (w % 2 ^ nbits)

/-- What the decoder reads from the word `w` of an opcode-table row of `nbits` bits. -/
def decodeTableWord (nbits w : Nat) : Option Instr :=
  match decode (tableWord nbits w) with
  | .command i => some i
  | .illegal _ => none

end Sys2Proof
end

