-- ==== Sys2Proof/Machine/Fetch.lean ====
section
/-! DEFINITION. How the engine comes to its next command (R75, R84 of 30_encoding.md): nothing is
fetched, the host delivers. The host's events stand in `State.input` (log 1). -/

namespace Sys2Proof.Machine

/-- What the next host event asks of the engine, and the state with that event taken. -/
inductive Delivery
  /-- No event waits: the engine is idle between commands (R209, R233; log 3). -/
  | idle
  /-- Hardware reset, between commands or cutting one short (R220; log 4). -/
  | resetTo (s : State)
  /-- A word that is no command (R73). -/
  | illegal (s : State)
  /-- A command to execute. -/
  | run (i : Instr) (s : State)
  deriving DecidableEq, Repr

/-- Take the next host event. -/
def deliver (s : State) : Delivery :=
  match s.input with
  | [] => .idle
  | .hardReset :: rest => .resetTo (hardwareReset { s with input := rest })
  | .commandCut _ :: rest => .resetTo (hardwareReset { s with input := rest })
  | .command w :: rest =>
    match decode w with
    | .command i => .run i { s with input := rest }
    | .illegal _ => .illegal { s with input := rest }

end Sys2Proof.Machine
end

