-- ==== Sys2Proof/Machine/Step.lean ====
section
/-! DEFINITION. One step of the machine: one host event (R75, R62; log 20). -/

namespace Sys2Proof.Machine

/-- One step: the next command to its response, a hardware reset, or nothing when no event waits. -/
def step (s : State) : Host.Outcome State Fault Refusal :=
  match deliver s with
  | .idle => .next s
  | .resetTo s' => .next s'
  | .illegal s' => .next (illegalWord s')
  | .run i s' => exec i s'

/-- The state with the word `w` of an opcode-table row as the very next thing the host presents
(log 14). -/
def State.withFetchWord (s : State) (nbits w : Nat) : State :=
  { s with input := .command (tableWord nbits w) :: s.input }

end Sys2Proof.Machine
end

