-- ==== Sys2Proof/Machine/Session.lean ====
section
/-! DEFINITION. Command sequences as the host sends them: one word after the response of the one before
(R75, R225), and the pseudo-instructions of R81 of 30_encoding.md. -/

namespace Sys2Proof.Machine

/-- Present one word and run it: one step with the word in front of the host's events. -/
def present (w : CmdWord) (s : State) : Result :=
  step { s with input := .command w :: s.input }

/-- Send the words in order, each after the response of the one before; the responses in order and the
state at the end. `none` if the machine stops or does not respond. -/
def session : List CmdWord → State → Option (List Response × State)
  | [], s => some ([], s)
  | w :: ws, s =>
    match present w s with
    | .next s' =>
      match s'.response, session ws s' with
      | some r, some (rs, t) => some (r :: rs, t)
      | _, _ => none
    | .fault _ => none
    | .refused _ => none

/-- `KEY s` (R81). -/
def keyCommands (key : List Byte) : List Instr := key.map .keyb

/-- `DATA s` (R81). -/
def dataCommands (data : List Byte) : List Instr := data.map .datab

/-- `DIGEST n` (R81). -/
def digestCommands (n : Nat) : List Instr := (List.range n).map .rddig

/-- `HASH v, n, k, d` (R81). -/
def hashCommands (var : Variant) (nn : Nat) (key data : List Byte) : List Instr :=
  .init var nn key.length :: keyCommands key ++ dataCommands data ++ .final :: digestCommands nn

/-- The words of a list of commands; `none` when an operand does not fit its field, "an assembler error,
not an engine fault" (R80). So a `HASH` with a key above 255 bytes "cannot be expressed" (R81). -/
def assemble (commands : List Instr) : Option (List CmdWord) :=
  if commands.all Instr.wf then some (commands.map encode) else none

end Sys2Proof.Machine
end

