-- ==== Sys2Proof/Machine/System.lean ====
section
/-! DEFINITION. Several engine instances side by side (R67 of 20_memory.md, R212 of 60_exceptions.md).
They share the ROM, which is no state, and nothing else. A model of one instance is complete
(92_eei_decisions.md D27); this file adds that they do not touch one another (log 11). -/

namespace Sys2Proof.Machine

/-- The engines of a system. -/
structure System where
  engines : List State
  deriving DecidableEq, Repr

/-- `N_INST` engines after reset. -/
def startSystem : System := ⟨List.replicate Config.nInst State.reset⟩

/-- One step of engine `k`; `none` when there is no engine `k`. -/
def systemStep (k : Nat) (sys : System) : Option (Host.Outcome System Fault Refusal) :=
  match sys.engines[k]? with
  | none => none
  | some s =>
    match step s with
    | .next s' => some (.next ⟨sys.engines.set k s'⟩)
    | .fault r => some (.fault r)
    | .refused r => some (.refused r)

end Sys2Proof.Machine
end

