-- ==== Sys2Proof/Safety.lean ====
section
/-! DEFINITION. What the statements are said in: the states after a response, a fault and a reset
written out field by field, the invariant of every reachable state (R41 of 10_state.md), and the tables
of permissions and phase transitions (R151, R170 of 43_driver_commands.md). None of these is written in
terms of the operations the meanings call. -/

namespace Sys2Proof.Machine

/-- The state `s` with a response given and nothing else changed. -/
def answered (rc : BitVec 4) (data : Word) (s : State) : State :=
  { s with response := some ⟨rc, data⟩ }

/-- The state after fault `f` was taken in `s` (R196): every register of the spec at zero but `PHASE`
and `ERR`, the response `(code, 0)`. The transient registers and the host's events are as before. -/
def faulted (f : EngineFault) (s : State) : State where
  h := Vector.replicate 8 0
  t := 0
  var := .B
  kk := 0
  nn := 0
  phase := .fault
  err := some f
  c := 0
  buf := []
  work := s.work
  r := s.r
  g := s.g
  input := s.input
  response := some ⟨faultCode f, 0⟩

/-- The state a hardware reset leaves (R40, R220), the host's events aside: nothing has been answered. -/
def afterHardReset (rest : List HostEvent) : State where
  h := Vector.replicate 8 0
  t := 0
  var := .B
  kk := 0
  nn := 0
  phase := .idle
  err := none
  c := 0
  buf := []
  work := none
  r := 0
  g := 0
  input := rest
  response := none

/-- `H`, `T`, `CFG`, `BUF` and `C` are all zero (R41 items 2 and 3). -/
structure AllZero (s : State) : Prop where
  h : s.h = Vector.replicate 8 0
  t : s.t = 0
  var : s.var = .B
  kk : s.kk = 0
  nn : s.nn = 0
  buf : s.buf = []
  c : s.c = 0

/-- The invariants of every reachable state (R41; item 7, which speaks of the past, is the statement
`AbsorbedCountIsTPlusC`). `bufWf` and `noWork` are the model's own: the canonical form of `BUF` and no
live compression between commands (R34, R36). For states outside it see log 21. -/
structure Inv (s : State) : Prop where
  /-- Item 1. -/
  errOnlyInFault : s.err ≠ none ↔ s.phase = .fault
  /-- Item 2. -/
  idle : s.phase = .idle → AllZero s
  /-- Item 3. -/
  fault : s.phase = .fault → AllZero s
  /-- Item 4. -/
  lengths : s.phase = .key ∨ s.phase = .data ∨ s.phase = .done →
    1 ≤ s.nn.toNat ∧ s.nn.toNat ≤ s.var.nnMax ∧ s.kk.toNat ≤ s.var.kkMax
  /-- Item 5. -/
  key : s.phase = .key →
    s.c.toNat < s.kk.toNat ∧ s.t = 0 ∧ s.h = store8 s.var (initHash s.var s.nn.toNat s.kk.toNat)
  /-- Item 6, first half. -/
  data : s.phase = .data → s.c.toNat ≤ s.var.blockBytes ∧ s.var.blockBytes ∣ s.t.toNat
  /-- Item 6, second half. -/
  nothingAbsorbed : s.phase = .data → s.c = 0 →
    s.t = 0 ∧ s.kk = 0 ∧ s.h = store8 s.var (initHash s.var s.nn.toNat 0)
  /-- Item 8. -/
  done : s.phase = .done → s.c = 0 ∧ s.buf = []
  /-- Item 9. -/
  padding : ∀ i, s.c.toNat ≤ i → Memory.read s.buf i = 0
  /-- Item 10. -/
  narrow : s.var = .S →
    (∀ i : Fin 8, s.h[i].toNat < 2 ^ 32) ∧ s.t.toNat < 2 ^ 64 ∧ s.c.toNat ≤ 64
  /-- Item 11. -/
  counter : s.t.toNat < 2 ^ s.var.counterBits
  /-- The buffer's list is canonical. -/
  bufWf : Memory.wf s.buf
  /-- No compression is running. -/
  noWork : s.work = none
  /-- The sequencer's counters are "zero whenever no compression is running" (R36). -/
  countersZero : s.r = 0 ∧ s.g = 0

/-- What the phase says to a command (R151). -/
inductive Permission
  /-- It executes as its rule says. -/
  | allowed
  /-- `SequenceError`. -/
  | sequence
  /-- Rejected with `rc = 15`. -/
  | rejected
  deriving DecidableEq, Repr

/-- The table of R151. -/
def permission : Instr → Phase → Permission
  | .reset, _ => .allowed
  | .rdreg idx, .fault => if idx ≤ 11 then .allowed else .rejected
  | .rdreg _, _ => .allowed
  | _, .fault => .rejected
  | .rdrom _, _ => .allowed
  | .init .., .idle => .allowed
  | .init .., .done => .allowed
  | .init .., _ => .sequence
  | .keyb _, .key => .allowed
  | .keyb _, _ => .sequence
  | .datab _, .data => .allowed
  | .datab _, _ => .sequence
  | .final, .data => .allowed
  | .final, _ => .sequence
  | .rddig _, .done => .allowed
  | .rddig _, _ => .sequence

/-- The faults a command can raise (R213 of 60_exceptions.md). -/
def mayRaise : Instr → List EngineFault
  | .reset => []
  | .init .. => [.invalidParameter, .sequenceError]
  | .keyb _ => [.sequenceError]
  | .datab _ => [.sequenceError, .lengthOverflow]
  | .final => [.sequenceError, .lengthOverflow]
  | .rdreg _ => [.operandRange]
  | .rddig _ => [.sequenceError, .operandRange]
  | .rdrom _ => [.operandRange]

/-- The phases a command can lead to from a phase (R151, R170). -/
def phaseAfter : Instr → Phase → List Phase
  | .reset, _ => [.idle]
  | _, .fault => [.fault]
  | .init _ _ kk, .idle => [if 0 < kk then .key else .data, .fault]
  | .init _ _ kk, .done => [if 0 < kk then .key else .data, .fault]
  | .keyb _, .key => [.key, .data]
  | .datab _, .data => [.data, .fault]
  | .final, .data => [.done, .fault]
  | .rddig _, .done => [.done, .fault]
  | .rdreg _, p => [p, .fault]
  | .rdrom _, p => [p, .fault]
  | _, _ => [.fault]

/-- The bytes absorbed so far: `T + C` once the key is complete (R41 item 7, R181 c). -/
def absorbedCount (s : State) : Nat := s.t.toNat + s.c.toNat

end Sys2Proof.Machine
end

