-- ==== Sys2Proof/Certificates/Slice0/Obligations.lean ====
section
/-! DEFINITION. The statements for the provers. Each docstring names the rule of spec/ it formalises. A
statement about every state holds in states no run reaches as well; where it could fail only there, `Inv`
(R41) is its premise. What a statement says of the fields `input` and `response` (logs 1, 2) and of `work`
between commands (log 5) is the form the model gives to commands, responses and dead registers. -/

open Sys2Proof
open Sys2Proof.Machine

/-! ## The commands, each by its whole rule -/

/-- R153: `RESET`. The word; in every phase the reset state and the response `(0, 0)`; no fault. -/
def Obligations.ResetCommandGivesResetState : Prop :=
  encode .reset = 0x01000000 ∧
  ∀ s : State, exec .reset s = .next { afterHardReset s.input with response := some ⟨0, 0⟩ }

/-- R155: `INIT var, nn, kk`. The word; rejected in `FAULT`; `SequenceError` in `KEY` and `DATA`
whatever the operands; `InvalidParameter` for a length out of range; otherwise the whole next state. -/
def Obligations.InitCommandFollowsItsRule : Prop :=
  ∀ (var : Variant) (nn kk : Nat) (s : State),
    let most : Nat := match var with | .B => 64 | .S => 32
    (nn < 256 → kk < 256 → (encode (.init var nn kk)).toNat =
      0x02000000 + (match var with | .B => 0 | .S => 0x10000) + 256 * kk + nn) ∧
    (s.phase = .fault → exec (.init var nn kk) s = .next (answered 15 0 s)) ∧
    (s.phase = .key ∨ s.phase = .data →
      exec (.init var nn kk) s = .next (faulted .sequenceError s)) ∧
    (s.phase = .idle ∨ s.phase = .done → nn < 1 ∨ most < nn ∨ most < kk →
      exec (.init var nn kk) s = .next (faulted .invalidParameter s)) ∧
    (s.phase = .idle ∨ s.phase = .done → 1 ≤ nn → nn ≤ most → kk ≤ most →
      exec (.init var nn kk) s = .next
        { s with
          var := var
          nn := BitVec.ofNat 8 nn
          kk := BitVec.ofNat 8 kk
          h := (store8 var (iv var)).set 0 ((store8 var (iv var))[0] ^^^
            BitVec.setWidth 64
              ((0x01010000 : BitVec 32) ^^^ (BitVec.ofNat 32 kk <<< 8) ^^^ BitVec.ofNat 32 nn))
          t := 0
          buf := []
          c := 0
          phase := if 0 < kk then .key else .data
          response := some ⟨0, 0⟩ })

/-- R160 with R161: `KEYB byte`. The word; rejected in `FAULT`; `SequenceError` outside `KEY`; otherwise
the byte lands at `BUF[C]`, `C` counts it, and the last key byte moves `C` to `bb` and `PHASE` to
`DATA`. `C < 128` holds in every reachable state (item 5 of `Inv`). -/
def Obligations.KeybCommandFollowsItsRule : Prop :=
  ∀ (byte : Byte) (s : State),
    (encode (.keyb byte)).toNat = 0x03000000 + byte.toNat ∧
    (s.phase = .fault → exec (.keyb byte) s = .next (answered 15 0 s)) ∧
    (s.phase ≠ .fault → s.phase ≠ .key →
      exec (.keyb byte) s = .next (faulted .sequenceError s)) ∧
    (s.phase = .key → s.c.toNat < 128 → s.c.toNat + 1 ≠ s.kk.toNat →
      exec (.keyb byte) s = .next
        { s with
          buf := Memory.write s.buf s.c.toNat byte
          c := BitVec.ofNat 8 (s.c.toNat + 1)
          response := some ⟨0, 0⟩ }) ∧
    (s.phase = .key → s.c.toNat < 128 → s.c.toNat + 1 = s.kk.toNat →
      exec (.keyb byte) s = .next
        { s with
          buf := Memory.write s.buf s.c.toNat byte
          c := match s.var with | .B => 128 | .S => 64
          phase := .data
          response := some ⟨0, 0⟩ })

/-- R164: `DATAB byte`. The word; rejected in `FAULT`; `SequenceError` outside `DATA`; when a full block
waits, `LengthOverflow` if `T + bb` reaches `2^TW`, otherwise the block is compressed with the advanced
counter and `final = 0`, the buffer is cleared and the byte is its first; when none waits the byte lands
at `BUF[C]` and nothing is compressed. `C < 128` holds there in every reachable state (item 6 of
`Inv`). -/
def Obligations.DatabCommandFollowsItsRule : Prop :=
  ∀ (byte : Byte) (s : State),
    (encode (.datab byte)).toNat = 0x04000000 + byte.toNat ∧
    (s.phase = .fault → exec (.datab byte) s = .next (answered 15 0 s)) ∧
    (s.phase ≠ .fault → s.phase ≠ .data →
      exec (.datab byte) s = .next (faulted .sequenceError s)) ∧
    (s.phase = .data → s.c.toNat = s.var.blockBytes →
      2 ^ s.var.counterBits ≤ s.t.toNat + s.var.blockBytes →
      exec (.datab byte) s = .next (faulted .lengthOverflow s)) ∧
    (s.phase = .data → s.c.toNat = s.var.blockBytes →
      s.t.toNat + s.var.blockBytes < 2 ^ s.var.counterBits →
      exec (.datab byte) s = .next
        { s with
          t := BitVec.ofNat 128 (s.t.toNat + s.var.blockBytes)
          h := store8 s.var (compressF s.var (load8 s.var s.h) (bufBytes s.buf 0 s.var.blockBytes)
            (s.t.toNat + s.var.blockBytes) false)
          buf := Memory.write [] 0 byte
          c := 1
          work := none
          r := 0
          g := 0
          response := some ⟨0, 0⟩ }) ∧
    (s.phase = .data → s.c.toNat ≠ s.var.blockBytes → s.c.toNat < 128 →
      exec (.datab byte) s = .next
        { s with
          buf := Memory.write s.buf s.c.toNat byte
          c := BitVec.ofNat 8 (s.c.toNat + 1)
          response := some ⟨0, 0⟩ })

/-- R167: `FINAL`. The word; rejected in `FAULT`; `SequenceError` outside `DATA`; `LengthOverflow` if
`T + C` reaches `2^TW`; otherwise `T` advances by `C`, the buffer is compressed with `final = 1` and
cleared, and the phase is `DONE`. -/
def Obligations.FinalCommandFollowsItsRule : Prop :=
  encode .final = 0x05000000 ∧
  ∀ s : State,
    (s.phase = .fault → exec .final s = .next (answered 15 0 s)) ∧
    (s.phase ≠ .fault → s.phase ≠ .data →
      exec .final s = .next (faulted .sequenceError s)) ∧
    (s.phase = .data → 2 ^ s.var.counterBits ≤ s.t.toNat + s.c.toNat →
      exec .final s = .next (faulted .lengthOverflow s)) ∧
    (s.phase = .data → s.t.toNat + s.c.toNat < 2 ^ s.var.counterBits →
      exec .final s = .next
        { s with
          t := BitVec.ofNat 128 (s.t.toNat + s.c.toNat)
          h := store8 s.var (compressF s.var (load8 s.var s.h) (bufBytes s.buf 0 s.var.blockBytes)
            (s.t.toNat + s.c.toNat) true)
          buf := []
          c := 0
          phase := .done
          work := none
          r := 0
          g := 0
          response := some ⟨0, 0⟩ })

/-- R181 with R180: `RDREG idx`. The word; the value of each of the twelve registers in every phase,
`FAULT` included, and no state change; above 11 `OperandRange`, or rejected in `FAULT`. In a `FAULT`
that a run can reach (`Inv`) registers 0 to 10 read 0 and `STATUS` reads `0x00e4`. -/
def Obligations.RdregCommandFollowsItsRule : Prop :=
  ∀ s : State,
    (∀ idx, idx < 256 → (encode (.rdreg idx)).toNat = 0x09000000 + idx) ∧
    (∀ i : Fin 8, exec (.rdreg i.val) s = .next (answered 0 s.h[i] s)) ∧
    exec (.rdreg 8) s = .next (answered 0 (BitVec.ofNat 64 (s.t.toNat % 2 ^ 64)) s) ∧
    exec (.rdreg 9) s = .next (answered 0 (BitVec.ofNat 64 (s.t.toNat / 2 ^ 64)) s) ∧
    exec (.rdreg 10) s = .next (answered 0
      (BitVec.ofNat 64 ((match s.var with | .B => 0 | .S => 1) * 2 ^ 16 + s.kk.toNat * 2 ^ 8 +
        s.nn.toNat)) s) ∧
    exec (.rdreg 11) s = .next (answered 0
      (BitVec.ofNat 64 (s.c.toNat * 2 ^ 8 + (errCode s.err).toNat * 2 ^ 4 +
        (phaseCode s.phase).toNat)) s) ∧
    (∀ idx, 11 < idx → s.phase = .fault → exec (.rdreg idx) s = .next (answered 15 0 s)) ∧
    (∀ idx, 11 < idx → s.phase ≠ .fault →
      exec (.rdreg idx) s = .next (faulted .operandRange s)) ∧
    (∀ f, Inv s → s.phase = .fault → s.err = some f →
      (∀ idx, idx ≤ 10 → exec (.rdreg idx) s = .next (answered 0 0 s)) ∧
      exec (.rdreg 11) s =
        .next (answered 0 (BitVec.ofNat 64 (16 * (faultCode f).toNat + 4)) s))

/-- R184 with R182: `RDDIG idx`. The word; rejected in `FAULT`; `SequenceError` outside `DONE`;
`OperandRange` for `idx >= NN`; otherwise digest byte `idx = (W/8) * j + k` is byte `k` of `H[j]`, least
significant first, and no state changes. -/
def Obligations.RddigCommandFollowsItsRule : Prop :=
  ∀ s : State,
    (∀ idx, idx < 256 → (encode (.rddig idx)).toNat = 0x0A000000 + idx) ∧
    (∀ idx, s.phase = .fault → exec (.rddig idx) s = .next (answered 15 0 s)) ∧
    (∀ idx, s.phase ≠ .fault → s.phase ≠ .done →
      exec (.rddig idx) s = .next (faulted .sequenceError s)) ∧
    (∀ idx, s.phase = .done → s.nn.toNat ≤ idx →
      exec (.rddig idx) s = .next (faulted .operandRange s)) ∧
    (∀ (j : Fin 8) (k : Nat), s.phase = .done → k < s.var.wordBytes →
      s.var.wordBytes * j.val + k < s.nn.toNat →
      exec (.rddig (s.var.wordBytes * j.val + k)) s = .next
        (answered 0 (BitVec.ofNat 64 (s.h[j].toNat / 2 ^ (8 * k) % 256)) s))

/-- R118 with R117: `RDROM addr`. The word; rejected in `FAULT`; in every other phase each assigned
address gives its item and changes no state, each unassigned address of the nine-bit space is
`OperandRange`. The tables' values are the spec's general knowledge (log 15). -/
def Obligations.RdromCommandFollowsItsRule : Prop :=
  ∀ s : State,
    (∀ addr, addr < 512 → (encode (.rdrom addr)).toNat = 0x0B000000 + addr) ∧
    (∀ addr, s.phase = .fault → exec (.rdrom addr) s = .next (answered 15 0 s)) ∧
    (s.phase ≠ .fault →
      (∀ i : Fin 8, exec (.rdrom i.val) s = .next (answered 0 ivB[i] s)) ∧
      (∀ i : Fin 8, exec (.rdrom (0x008 + i.val)) s =
        .next (answered 0 (BitVec.ofNat 64 ivS[i].toNat) s)) ∧
      (∀ i : Fin 4, exec (.rdrom (0x010 + i.val)) s =
        .next (answered 0 (BitVec.ofNat 64 (rotations .B)[i]) s)) ∧
      (∀ i : Fin 4, exec (.rdrom (0x014 + i.val)) s =
        .next (answered 0 (BitVec.ofNat 64 (rotations .S)[i]) s)) ∧
      (∀ (r : Fin 12) (i : Fin 16), exec (.rdrom (0x100 + 16 * r.val + i.val)) s =
        .next (answered 0 (BitVec.ofNat 64 sigma[r][i].val) s)) ∧
      (∀ addr, (0x018 ≤ addr ∧ addr ≤ 0x0FF) ∨ (0x1C0 ≤ addr ∧ addr ≤ 0x1FF) →
        exec (.rdrom addr) s = .next (faulted .operandRange s)))

/-! ## Faults -/

/-- R198: in `FAULT` only `RESET` and `RDREG` with `idx <= 11` execute; every other word, legal or not,
is answered `(15, 0)` and nothing else changes. -/
def Obligations.FaultRejectsAllButResetAndRdreg : Prop :=
  ∀ (w : CmdWord) (rest : List HostEvent) (s : State),
    s.phase = .fault → s.input = .command w :: rest →
    (decode w = .command .reset →
      step s = .next { afterHardReset rest with response := some ⟨0, 0⟩ }) ∧
    (∀ idx, decode w = .command (.rdreg idx) → idx ≤ 11 →
      ∃ value, step s = .next (answered 0 value { s with input := rest })) ∧
    (decode w ≠ .command .reset → (∀ idx, decode w = .command (.rdreg idx) → 11 < idx) →
      step s = .next (answered 15 0 { s with input := rest }))

/-- R192: `SequenceError` is raised when, and only when, a command arrives in a phase the table of R151
does not permit: `INIT` in `KEY` or `DATA`, `KEYB` outside `KEY`, `DATAB` or `FINAL` outside `DATA`,
`RDDIG` outside `DONE`. -/
def Obligations.SequenceErrorExactlyWhenNotPermitted : Prop :=
  ∀ (i : Instr) (s : State), s.phase ≠ .fault →
    (exec i s = .next (faulted .sequenceError s) ↔
      (∃ var nn kk, i = .init var nn kk ∧ (s.phase = .key ∨ s.phase = .data)) ∨
      (∃ byte, i = .keyb byte ∧ s.phase ≠ .key) ∨
      (∃ byte, i = .datab byte ∧ s.phase ≠ .data) ∨
      (i = .final ∧ s.phase ≠ .data) ∨
      (∃ idx, i = .rddig idx ∧ s.phase ≠ .done))

/-- R191: `InvalidParameter` is raised by `INIT` exactly when `nn < 1`, `nn > nn_max` or `kk > kk_max`
(in the phases that permit it), and by no other command. -/
def Obligations.InvalidParameterExactlyWhenLengthsIllegal : Prop :=
  ∀ (i : Instr) (s : State), s.phase ≠ .fault →
    (exec i s = .next (faulted .invalidParameter s) ↔
      ∃ var nn kk, i = .init var nn kk ∧ (s.phase = .idle ∨ s.phase = .done) ∧
        (nn < 1 ∨ (match var with | .B => 64 | .S => 32) < nn ∨
          (match var with | .B => 64 | .S => 32) < kk))

/-- R193: `IllegalCommand` is raised exactly when the word matches no row of the opcode map, in every
phase but `FAULT` and before any phase check. -/
def Obligations.IllegalCommandExactlyWhenNoRowMatches : Prop :=
  ∀ (w : CmdWord) (rest : List HostEvent) (s : State),
    s.phase ≠ .fault → s.input = .command w :: rest →
    (step s = .next (faulted .illegalCommand { s with input := rest }) ↔
      ∀ row ∈ opcodeMap, w &&& row.mask ≠ row.pattern)

/-- R194: `OperandRange` is raised by `RDREG` above 11, by `RDDIG` at or above `NN` in `DONE`, by `RDROM`
at an unassigned address, and by nothing else. -/
def Obligations.OperandRangeExactlyWhenNothingIsNamed : Prop :=
  ∀ (i : Instr) (s : State), i.wf = true → s.phase ≠ .fault →
    (exec i s = .next (faulted .operandRange s) ↔
      (∃ idx, i = .rdreg idx ∧ 11 < idx) ∨
      (∃ idx, i = .rddig idx ∧ s.phase = .done ∧ s.nn.toNat ≤ idx) ∨
      (∃ addr, i = .rdrom addr ∧
        ((0x018 ≤ addr ∧ addr ≤ 0x0FF) ∨ (0x1C0 ≤ addr ∧ addr ≤ 0x1FF))))

/-- R195: `LengthOverflow` is raised by `DATAB` when a block waits and `T + bb >= 2^TW`, by `FINAL` when
`T + C >= 2^TW` (in `DATA`), and by nothing else; `TW` is 128 in `B`, 64 in `S`. -/
def Obligations.LengthOverflowExactlyWhenCounterIsFull : Prop :=
  ∀ (i : Instr) (s : State), s.phase ≠ .fault →
    (exec i s = .next (faulted .lengthOverflow s) ↔
      s.phase = .data ∧
        ((∃ byte, i = .datab byte ∧ s.c.toNat = s.var.blockBytes ∧
            2 ^ (match s.var with | .B => 128 | .S => 64) ≤ s.t.toNat + s.var.blockBytes) ∨
          (i = .final ∧
            2 ^ (match s.var with | .B => 128 | .S => 64) ≤ s.t.toNat + s.c.toNat)))

/-- R196: whatever word it is that takes the engine into `FAULT`, what it leaves is exactly the fault
entry of one of the five faults: everything zero, `ERR` the code, response `(code, 0)`, nothing
saved. That the dead registers `work`, `r` and `g` stay is the model's frame
(log 5). -/
def Obligations.EveryFaultEntersTheSameWay : Prop :=
  ∀ (w : CmdWord) (rest : List HostEvent) (s t : State),
    s.phase ≠ .fault → s.input = .command w :: rest → step s = .next t → t.phase = .fault →
    ∃ f : EngineFault, t = faulted f { s with input := rest }

/-- R200: the only way out of `FAULT` is `RESET` or hardware reset, and it gives the reset state. -/
def Obligations.FaultIsLeftOnlyByReset : Prop :=
  ∀ s t : State, s.phase = .fault → step s = .next t → t.phase ≠ .fault →
    ∃ e rest, s.input = e :: rest ∧
      ((∃ w, e = .command w ∧ decode w = .command .reset ∧
          t = { afterHardReset rest with response := some ⟨0, 0⟩ }) ∨
        ((e = .hardReset ∨ ∃ w, e = .commandCut w) ∧ t = afterHardReset rest))

/-- R213: a command takes the engine into `FAULT` only with a fault of its row of the table, and each of
those can happen. -/
def Obligations.CommandsRaiseExactlyTheirFaults : Prop :=
  ∀ (i : Instr) (f : EngineFault),
    f ∈ mayRaise i ↔
      ∃ (j : Instr) (s t : State), opcode j = opcode i ∧ s.phase ≠ .fault ∧
        exec j s = .next t ∧ t.phase = .fault ∧ t.err = some f

/-- R79 and R211: a command run outside `FAULT` that does not end in `FAULT` is answered with `rc = 0`,
and it leaves `ERR` as it was unless it is `RESET`, which clears it. -/
def Obligations.NoFaultMeansOkResponse : Prop :=
  ∀ (i : Instr) (s t : State), s.phase ≠ .fault → exec i s = .next t → t.phase ≠ .fault →
    (∃ data, t.response = some ⟨0, data⟩) ∧ (t.err = s.err ∨ (i = .reset ∧ t.err = none))

/-- R78 and R79 for every word: exactly one response, whose code is 0 to 5 or 15; a code 1 to 5 is the
new `ERR`; 15 changes nothing; the value is 0 but for a read that succeeds. -/
def Obligations.EveryCommandAnswersOnce : Prop :=
  ∀ (w : CmdWord) (rest : List HostEvent) (s t : State),
    s.input = .command w :: rest → step s = .next t →
    t.input = rest ∧
    ∃ r, t.response = some r ∧
      ((r.rc = 0 ∧ (r.data = 0 ∨ (∃ idx, decode w = .command (.rdreg idx)) ∨
          (∃ idx, decode w = .command (.rddig idx)) ∨ ∃ addr, decode w = .command (.rdrom addr))) ∨
        (r.rc = 15 ∧ s.phase = .fault ∧ t = answered 15 0 { s with input := rest }) ∨
        (∃ f, r.rc = faultCode f ∧ r.data = 0 ∧ s.phase ≠ .fault ∧ t.phase = .fault ∧
          t.err = some f))

/-! ## The step -/

/-- R62, R75: a step with a word waiting that decodes to a command is that command's meaning on the
state with the word taken from the input. With nothing waiting a step changes nothing; that an idle
engine takes steps at all is the model's choice (log 3). -/
def Obligations.StepRunsTheDeliveredCommand : Prop :=
  ∀ (w : CmdWord) (rest : List HostEvent) (i : Instr) (s : State),
    (s.input = .command w :: rest → decode w = .command i →
      step s = exec i { s with input := rest }) ∧
    (s.input = [] → step s = .next s)

/-- R220: hardware reset gives the reset state and no response, also when it cuts a command short. The empty
`response` is the model's form of "never given" (logs 2, 4). -/
def Obligations.HardwareResetGivesResetState : Prop :=
  ∀ (rest : List HostEvent) (s : State),
    (s.input = .hardReset :: rest → step s = .next (afterHardReset rest)) ∧
    (∀ w, s.input = .commandCut w :: rest → step s = .next (afterHardReset rest))

/-- The stops of the model, which are its own (logs 7, 8): a byte absorbed above `BUF[127]`, a digest
byte above `H[7]`. A command stops in no other way, and stops then. -/
def Obligations.StopsExactlyWhereStorageEnds : Prop :=
  ∀ (i : Instr) (s : State),
    (∀ t, exec i s ≠ .next t) ↔
      ((∃ byte, i = .keyb byte ∧ s.phase = .key ∧ 128 ≤ s.c.toNat) ∨
        (∃ byte, i = .datab byte ∧ s.phase = .data ∧ s.c.toNat ≠ s.var.blockBytes ∧
          128 ≤ s.c.toNat) ∨
        (∃ idx, i = .rddig idx ∧ s.phase = .done ∧ idx < s.nn.toNat ∧
          8 * s.var.wordBytes ≤ idx))

/-! ## Invariants -/

/-- The reset state meets the invariant (R40, R41). -/
def Obligations.ResetMeetsInvariant : Prop := Inv State.reset

/-- Every step keeps the invariant (R41: "preserved by every command"; hardware reset and an idle step
keep it too). -/
def Obligations.StepKeepsInvariant : Prop :=
  ∀ s t : State, Inv s → step s = .next t → Inv t

/-- Under the invariant no step stops: every word in every reachable state has exactly one outcome
(93_implementation_defined.md, end of section 1; R202). -/
def Obligations.StepNeverStopsUnderInvariant : Prop :=
  ∀ s : State, Inv s → ∃ t, step s = .next t

/-- R41 item 7: `T + C` counts the bytes absorbed. An `INIT` without key starts it at 0, the last key
byte makes it `bb`, each data byte adds 1, and `FINAL` leaves the total in `T`. -/
def Obligations.AbsorbedCountIsTPlusC : Prop :=
  ∀ s t : State, Inv s →
    (∀ var nn, exec (.init var nn 0) s = .next t → t.phase = .data → absorbedCount t = 0) ∧
    (∀ byte, exec (.keyb byte) s = .next t → t.phase = .data →
      absorbedCount t = t.var.blockBytes) ∧
    (∀ byte, exec (.datab byte) s = .next t → t.phase = .data →
      absorbedCount t = absorbedCount s + 1) ∧
    (exec .final s = .next t → t.phase = .done →
      t.t.toNat = absorbedCount s ∧ absorbedCount t = absorbedCount s)

/-! ## Whole-machine rules -/

/-- R151 and R170: a command leads from a phase only to the phases of the transition table. -/
def Obligations.PhaseFollowsTransitionTable : Prop :=
  ∀ (i : Instr) (s t : State), exec i s = .next t → t.phase ∈ phaseAfter i s.phase

/-- R151: the table of permissions. A rejected command changes nothing but the response, one out of
sequence takes `SequenceError`, a permitted one answers with neither code. -/
def Obligations.PermissionTableDecides : Prop :=
  ∀ (i : Instr) (s : State),
    (permission i s.phase = .rejected → exec i s = .next (answered 15 0 s)) ∧
    (permission i s.phase = .sequence → exec i s = .next (faulted .sequenceError s)) ∧
    (permission i s.phase = .allowed → ∀ t, exec i s = .next t →
      ∃ r, t.response = some r ∧ r.rc ≠ 15 ∧ r.rc ≠ faultCode .sequenceError)

/-- R206 with R23: the counter is set to 0 by `INIT`, `RESET` and fault entry, and otherwise advanced
only by `DATAB` when a full block waits, by `bb`, and by `FINAL`, by `C`. -/
def Obligations.CounterMovesOnlyBeforeCompression : Prop :=
  ∀ (i : Instr) (s t : State), exec i s = .next t → t.t ≠ s.t →
    (t.t = 0 ∧ (i = .reset ∨ t.phase = .fault ∨ ∃ var nn kk, i = .init var nn kk)) ∨
    (∃ byte, i = .datab byte ∧ s.phase = .data ∧ s.c.toNat = s.var.blockBytes ∧
      t.t.toNat = s.t.toNat + s.var.blockBytes) ∨
    (i = .final ∧ s.phase = .data ∧ t.phase = .done ∧ t.t.toNat = s.t.toNat + s.c.toNat)

/-- R21, R185 a: in `DONE` the hash words stay until `INIT`, `RESET` or a fault. -/
def Obligations.DigestStaysUntilInitResetOrFault : Prop :=
  ∀ (i : Instr) (s t : State), s.phase = .done → exec i s = .next t → t.h ≠ s.h →
    i = .reset ∨ t.phase = .fault ∨ ∃ var nn kk, i = .init var nn kk

/-- R59: a read that does not fault changes nothing but the response, and read again it gives the same
response. -/
def Obligations.ReadsHaveNoSideEffect : Prop :=
  ∀ (i : Instr) (s t : State),
    ((∃ idx, i = .rdreg idx) ∨ (∃ idx, i = .rddig idx) ∨ (∃ addr, i = .rdrom addr)) →
    exec i s = .next t → t.phase = s.phase →
    t = { s with response := t.response } ∧ exec i t = .next t

/-- R183: no read command's response depends on the block buffer or on the Compressor's registers. -/
def Obligations.ReadsDoNotReachTheBuffer : Prop :=
  ∀ (i : Instr) (s t : State) (buf : Memory) (work : Option Working)
    (r : BitVec 4) (g : BitVec 3),
    ((∃ idx, i = .rdreg idx) ∨ (∃ idx, i = .rddig idx) ∨ (∃ addr, i = .rdrom addr)) →
    exec i s = .next t →
    ∃ t', exec i { s with buf := buf, work := work, r := r, g := g } = .next t' ∧ t'.response = t.response ∧
      t'.phase = t.phase

/-- R43: an accepted `INIT` leaves a state that does not depend on the invocation before it. -/
def Obligations.InitForgetsThePast : Prop :=
  ∀ (var : Variant) (nn kk : Nat) (s₁ s₂ t : State), Inv s₁ → Inv s₂ → s₁.input = s₂.input →
    exec (.init var nn kk) s₁ = .next t → t.phase = .key ∨ t.phase = .data →
    (s₂.phase = .idle ∨ s₂.phase = .done) → exec (.init var nn kk) s₂ = .next t

/-- The byte frame of the block buffer (R27, R51): a `KEYB` or `DATAB` that compresses nothing stores to
`BUF[C]` and to no other address; a `DATAB` that compresses leaves the byte at address 0 and 0 at every
other; a read that does not fault stores nothing; after `RESET`, a `FINAL` or `INIT` that is not rejected,
and after every fault entry, every address reads 0. A word rejected in `FAULT` is not spoken of here: it
changes nothing but the response (`FaultRejectsAllButResetAndRdreg`). -/
def Obligations.BufferBytesFrame : Prop :=
  ∀ (s t : State), Memory.wf s.buf →
    (∀ byte, exec (.keyb byte) s = .next t → t.phase = .key ∨ t.phase = .data →
      Memory.read t.buf s.c.toNat = byte ∧
      ∀ a, a ≠ s.c.toNat → Memory.read t.buf a = Memory.read s.buf a) ∧
    (∀ byte, exec (.datab byte) s = .next t → t.phase = .data → s.c.toNat ≠ s.var.blockBytes →
      Memory.read t.buf s.c.toNat = byte ∧
      ∀ a, a ≠ s.c.toNat → Memory.read t.buf a = Memory.read s.buf a) ∧
    (∀ byte, exec (.datab byte) s = .next t → t.phase = .data → s.c.toNat = s.var.blockBytes →
      Memory.read t.buf 0 = byte ∧ ∀ a, a ≠ 0 → Memory.read t.buf a = 0) ∧
    (∀ i : Instr, ((∃ idx, i = .rdreg idx) ∨ (∃ idx, i = .rddig idx) ∨ (∃ addr, i = .rdrom addr)) →
      exec i s = .next t → t.phase = s.phase → ∀ a, Memory.read t.buf a = Memory.read s.buf a) ∧
    (∀ i : Instr, (i = .reset ∨ i = .final ∨ ∃ var nn kk, i = .init var nn kk) →
      exec i s = .next t → s.phase ≠ .fault ∨ i = .reset → ∀ a, Memory.read t.buf a = 0) ∧
    (∀ i : Instr, exec i s = .next t → s.phase ≠ .fault → t.phase = .fault →
      ∀ a, Memory.read t.buf a = 0)

/-- R67, R212: a step of one engine leaves every other engine as it was and is that engine's own step. -/
def Obligations.InstancesDoNotTouchEachOther : Prop :=
  ∀ (k : Nat) (sys sys' : System), systemStep k sys = some (.next sys') →
    (∃ s s', sys.engines[k]? = some s ∧ sys'.engines[k]? = some s' ∧ step s = .next s') ∧
    ∀ j, j ≠ k → sys'.engines[j]? = sys.engines[j]?

/-! ## Encoding -/

/-- R76: encoding then decoding a command gives the command back, every operand at every value its
field admits. -/
def Obligations.DecodeOfEncodeIsTheCommand : Prop :=
  ∀ i : Instr, i.wf = true → decode (encode i) = .command i

/-- R76: decoding then encoding a legal word gives the word back, and what a word decodes to fits its
fields. -/
def Obligations.EncodeOfDecodeIsTheWord : Prop :=
  ∀ (w : CmdWord) (i : Instr), decode w = .command i → encode i = w ∧ i.wf = true

/-- R72: a word is a command of a row exactly when its masked bits are the row's match. -/
def Obligations.WordIsCommandExactlyWhenRowMatches : Prop :=
  ∀ w : CmdWord,
    (w &&& 0xFFFFFFFF = 0x01000000 ↔ decode w = .command .reset) ∧
    (w &&& 0xFFFE0000 = 0x02000000 ↔ ∃ var nn kk, decode w = .command (.init var nn kk)) ∧
    (w &&& 0xFFFFFF00 = 0x03000000 ↔ ∃ byte, decode w = .command (.keyb byte)) ∧
    (w &&& 0xFFFFFF00 = 0x04000000 ↔ ∃ byte, decode w = .command (.datab byte)) ∧
    (w &&& 0xFFFFFFFF = 0x05000000 ↔ decode w = .command .final) ∧
    (w &&& 0xFFFFFF00 = 0x09000000 ↔ ∃ idx, decode w = .command (.rdreg idx)) ∧
    (w &&& 0xFFFFFF00 = 0x0A000000 ↔ ∃ idx, decode w = .command (.rddig idx)) ∧
    (w &&& 0xFFFFFE00 = 0x0B000000 ↔ ∃ addr, decode w = .command (.rdrom addr))

/-- Words written out from R71 and R72 decode to the commands they stand for, and words with a reserved
bit or an unassigned opcode to none (R73). -/
def Obligations.WrittenOutWordsDecodeRight : Prop :=
  decode 0b00000001000000000000000000000000 = .command .reset ∧
  decode 0b00000010000000010000011100011100 = .command (.init .S 28 7) ∧
  decode 0b00000011000000000000000001101011 = .command (.keyb 0x6b) ∧
  decode 0b00000100000000000000000001100001 = .command (.datab 0x61) ∧
  decode 0b00000101000000000000000000000000 = .command .final ∧
  decode 0b00001001000000000000000000001011 = .command (.rdreg 11) ∧
  decode 0b00001010000000000000000000111111 = .command (.rddig 63) ∧
  decode 0b00001011000000000000000110111111 = .command (.rdrom 0x1BF) ∧
  decode 0b00000010000000100000000001000000 = .illegal (.reservedBits 2) ∧
  decode 0 = .illegal (.unassignedOpcode 0)

/-- In whatever byte order a word travels over the model's byte-wide transport, what arrives decodes as
the word itself. The transport, a permutation of the word's four byte lanes, is the model's choice
(log 10): the spec treats a command word as one 32-bit number and leaves the order open (R56, R70). -/
def Obligations.ByteOrderDoesNotMatter : Prop :=
  ∀ (order : Equiv.Perm (Fin 4)) (w : CmdWord),
    decodeBytes order (bytesOfWord order w) = decode w

/-- R83: the low 16 bits of an `INIT` word are those of the parameter word. -/
def Obligations.InitWordCarriesParameterWord : Prop :=
  ∀ (var : Variant) (nn kk : Nat), nn < 256 → kk < 256 →
    (encode (.init var nn kk)).toNat % 2 ^ 16 = (paramWord nn kk).toNat % 2 ^ 16 ∧
    (paramWord nn kk).toNat / 2 ^ 16 = 0x0101

/-! ## The mixer and the Compressor -/

/-- R94: bit `i` of a right rotation by `n` is bit `(i + n) mod W` of the word. -/
def Obligations.RotationMovesBits : Prop :=
  ∀ (w : Nat) (a : BitVec w) (n i : Nat), 0 < n → n < w → i < w →
    (rotr a n).getLsbD i = a.getLsbD ((i + n) % w)

/-- R98: the mixer leaves every word but its four as it was, and its four depend on nothing but those
four and the two message words. -/
def Obligations.MixerReadsAndWritesItsFourWords : Prop :=
  ∀ (w : Nat) (rot : Vector Nat 4) (u v : Vector (BitVec w) 16) (a b c d : Fin 16)
    (x y : BitVec w),
    (∀ i : Fin 16, i ≠ a → i ≠ b → i ≠ c → i ≠ d → (mixG rot v a b c d x y)[i] = v[i]) ∧
    (u[a] = v[a] → u[b] = v[b] → u[c] = v[c] → u[d] = v[d] →
      ∀ i : Fin 16, i = a ∨ i = b ∨ i = c ∨ i = d →
        (mixG rot u a b c d x y)[i] = (mixG rot v a b c d x y)[i])

/-- R101: at four different positions the mixer of a variant loses nothing: two vectors with the same
result are the same. -/
def Obligations.MixerIsInjective : Prop :=
  ∀ (var : Variant) (u v : Vector (BitVec var.wordBits) 16) (a b c d : Fin 16)
    (x y : BitVec var.wordBits), [a, b, c, d].Nodup →
    mixG (rotations var) u a b c d x y = mixG (rotations var) v a b c d x y → u = v

/-- R139: the four column calls of a round give the same vector in any order, and so do the four
diagonal calls. Rounds 10 and 11 of `S`, which the spec does not have, are the model's choice (log 23). -/
def Obligations.CallsOfHalfRoundCommute : Prop :=
  ∀ (var : Variant) (m v : Vector (BitVec var.wordBits) 16) (r : Fin 12) (order : List (Fin 8)),
    (order.Perm [0, 1, 2, 3] → order.foldl (fun v g => mixCall var m r g v) v =
      [0, 1, 2, 3].foldl (fun v g => mixCall var m r g v) v) ∧
    (order.Perm [4, 5, 6, 7] → order.foldl (fun v g => mixCall var m r g v) v =
      [4, 5, 6, 7].foldl (fun v g => mixCall var m r g v) v)

/-- R133, R140: the low half of the counter enters word 12 and the high half word 13, so that the two
words together give the counter back, and it enters no other word; with counter 0 and no flag words 8 to
15 are the IV; in `S` a counter of `2^32` leaves word 12 alone and reaches word 13. The flag enters word
14 only, where it turns every bit. The halves are stated for `t < 2^TW`, the counters the spec has
(R130). -/
def Obligations.CounterAndFlagReachTheirWordsOnly : Prop :=
  ∀ (var : Variant) (h : Vector (BitVec var.wordBits) 8),
    (∀ (t : Nat) (f : Bool), t < 2 ^ var.counterBits →
      ((startVector var h t f)[12] ^^^ (iv var)[4]).toNat = t % 2 ^ var.wordBits ∧
      ((startVector var h t f)[13] ^^^ (iv var)[5]).toNat = t / 2 ^ var.wordBits) ∧
    (∀ (t t' : Nat) (f f' : Bool), t < 2 ^ var.counterBits → t' < 2 ^ var.counterBits →
      (startVector var h t f)[12] = (startVector var h t' f')[12] →
      (startVector var h t f)[13] = (startVector var h t' f')[13] → t = t') ∧
    (∀ i : Fin 8, (startVector var h 0 false)[8 + i.val] = (iv var)[i]) ∧
    (var = .S → ∀ f : Bool,
      (startVector var h (2 ^ 32) f)[12] = (startVector var h 0 f)[12] ∧
      (startVector var h (2 ^ 32) f)[13] ≠ (startVector var h 0 f)[13]) ∧
    (∀ (t t' : Nat) (f f' : Bool),
      (∀ i : Fin 16, i ≠ 12 → i ≠ 13 → i ≠ 14 →
        (startVector var h t f)[i] = (startVector var h t' f')[i]) ∧
      (startVector var h t f)[12] = (startVector var h t f')[12] ∧
      (startVector var h t f)[13] = (startVector var h t f')[13] ∧
      (startVector var h t f)[14] = (startVector var h t' f)[14] ∧
      (startVector var h t true)[14] = ~~~(startVector var h t' false)[14])

/-- R135: starting at `(r, g) = (0, 0)`, the sequencer's tick number `k` below `8 * R` is mixer call
`k mod 8` of round `k div 8` on the registers. That `r` and `g` are 0 already after tick `8 * R`, before the
feed-forward, is the model's choice (log 18); R36 says only that they are 0 when no compression runs. -/
def Obligations.SequencerMakesTheCallsInOrder : Prop :=
  ∀ (var : Variant) (q : Sequencer), q.r = 0 → q.g = 0 →
    (∀ (r : Fin 12) (g : Fin 8), r.val < var.rounds →
      let before := ticks var (8 * r.val + g.val) q
      before.r.toNat = r.val ∧ before.g.toNat = g.val ∧
      (tick var before).v =
        store16 var (mixCall var (load16 var q.m) r g (load16 var before.v)) ∧
      (tick var before).m = q.m) ∧
    (ticks var (8 * var.rounds) q).r = 0 ∧ (ticks var (8 * var.rounds) q).g = 0

/-- R36: `r` (0 to `R-1`) and `g` (0 to 7) count the `8 * R` mixer calls of a compression in order. They are
0 at reset and stay 0 from step to step; no command's outcome depends on them, and no response or other
register shows them. -/
def Obligations.SequencerCountersAreHiddenAndZero : Prop :=
  (∀ (var : Variant) (q : Sequencer) (k : Nat), q.r = 0 → q.g = 0 → k < 8 * var.rounds →
    (ticks var k q).r.toNat < var.rounds ∧
    8 * (ticks var k q).r.toNat + (ticks var k q).g.toNat = k) ∧
  State.reset.r = 0 ∧ State.reset.g = 0 ∧
  (∀ s t : State, s.r = 0 → s.g = 0 → step s = .next t → t.r = 0 ∧ t.g = 0) ∧
  (∀ (i : Instr) (s : State) (r : BitVec 4) (g : BitVec 3),
    (∀ t, exec i s = .next t →
      ∃ r' g', exec i { s with r := r, g := g } = .next { t with r := r', g := g' }) ∧
    (∀ f, exec i s = .fault f → exec i { s with r := r, g := g } = .fault f))

/-- R137: the compression the engine runs over its 64-bit registers, tick by tick, computes the pure
function `F` of `H`, the block, `T` and the flag on exact `W`-bit words, and changes nothing else. For `T`
of `2^TW` and more, which no run reaches, what `F` is is the model's choice (log 22). -/
def Obligations.SequencerComputesF : Prop :=
  ∀ (final : Bool) (s : State),
    compress final s =
      { s with
        h := store8 s.var (compressF s.var (load8 s.var s.h) (bufBytes s.buf 0 s.var.blockBytes)
          s.t.toNat final)
        work := none
        r := 0
        g := 0 }

/-! ## Whole invocations -/

/-- R174 b: `len(hash(input, key, variant, L)) == L` for every valid `L`; no result for invalid
lengths. For streams of `2^TW` bytes and more, where the spec does not define `Hash`, it is the model's choice
that there is a digest (log 22). -/
def Obligations.HashHasRequestedLength : Prop :=
  ∀ (data key : List Byte) (var : Variant) (nn : Nat),
    (legalLengths var nn key.length = true → ∃ d, blake2 data key var nn = some d ∧ d.length = nn) ∧
    (legalLengths var nn key.length = false → blake2 data key var nn = none)

/-- R80, R81: the pseudo-instructions expand to the words of their commands; a `HASH` whose key or digest
length does not fit its field has no words and is in any case invalid, and `DIGEST n` has words exactly for
`n` up to 256. -/
def Obligations.HashIsExpressibleExactlyWhenLengthsFit : Prop :=
  ∀ (var : Variant) (nn : Nat) (key data : List Byte),
    assemble (keyCommands key) = some (key.map fun b => encode (.keyb b)) ∧
    assemble (dataCommands data) = some (data.map fun b => encode (.datab b)) ∧
    (∀ n, n ≤ 256 → assemble (digestCommands n) = some ((List.range n).map fun i => encode (.rddig i))) ∧
    (∀ n, 256 < n → assemble (digestCommands n) = none) ∧
    (nn < 256 → key.length < 256 →
      assemble (hashCommands var nn key data) = some
        ([encode (.init var nn key.length)] ++ key.map (fun b => encode (.keyb b)) ++
          data.map (fun b => encode (.datab b)) ++ [encode .final] ++
          (List.range nn).map fun i => encode (.rddig i))) ∧
    (256 ≤ nn ∨ 256 ≤ key.length →
      assemble (hashCommands var nn key data) = none ∧ legalLengths var nn key.length = false)

/-- R173: from `IDLE` or `DONE`, with valid lengths and a total below `2^TW`, the commands of `HASH var,
nn, key, data` are all answered with `rc = 0`, end in `DONE`, and the `RDDIG` responses are the bytes of
the pure function `Hash`. -/
def Obligations.HashCommandsComputeHash : Prop :=
  ∀ (var : Variant) (nn : Nat) (key data : List Byte) (s : State),
    s.phase = .idle ∨ s.phase = .done → legalLengths var nn key.length = true →
    (absorbedStream var key data).length < 2 ^ var.counterBits →
    ∃ words digest t, assemble (hashCommands var nn key data) = some words ∧
      blake2 data key var nn = some digest ∧
      session words s =
        some (List.replicate (key.length + data.length + 2) ⟨0, 0⟩ ++
          digest.map (fun b => ⟨0, b.setWidth 64⟩), t) ∧
      t.phase = .done

/-- R173, second half: with an invalid digest length or key length that still fits its field (R80, R81:
a longer one cannot be expressed, `HashIsExpressibleExactlyWhenLengthsFit`) the `INIT` is answered with `rc = 1`
and every later command of `HASH` with `rc = 15`. -/
def Obligations.InvalidHashIsRejectedThroughout : Prop :=
  ∀ (var : Variant) (nn : Nat) (key data : List Byte) (s : State),
    s.phase = .idle ∨ s.phase = .done → nn < 256 → key.length < 256 →
    legalLengths var nn key.length = false →
    ∃ words t, assemble (hashCommands var nn key data) = some words ∧ session words s =
      some (⟨1, 0⟩ :: List.replicate (key.length + data.length + 1 + nn) ⟨15, 0⟩, t) ∧
      t.phase = .fault ∧ t.err = some .invalidParameter
end

