-- ==== Sys2Proof/Laws/Encoding.lean ====
section
/-! SUPPORT. Bits of a command word as numbers. -/

namespace Sys2Proof

/-- A field of a word as a number. -/
theorem bits_toNat (w : CmdWord) (lo len : Nat) :
    (bits w lo len).toNat = w.toNat / 2 ^ lo % 2 ^ len := by
  simp [bits, BitVec.extractLsb'_toNat, Nat.shiftRight_eq_div_pow]

theorem bits_eq_iff (w : CmdWord) (lo len : Nat) (x : BitVec len) :
    bits w lo len = x ↔ w.toNat / 2 ^ lo % 2 ^ len = x.toNat := by
  rw [← BitVec.toNat_inj, bits_toNat]

theorem opcode_lt (i : Instr) : opcode i < 256 := by cases i <;> simp [opcode]

theorem operandField_lt (i : Instr) : operandField i < 2 ^ 24 := by
  cases i with
  | init v nn kk => cases v <;> simp [operandField, bitOfVariant] <;> omega
  | _ => simp [operandField] <;> omega

/-- The word of a command as a number. -/
theorem encode_toNat (i : Instr) : (encode i).toNat = opcode i * 2 ^ 24 + operandField i := by
  have ho := opcode_lt i
  have hf := operandField_lt i
  rw [encode, BitVec.toNat_ofNat, Nat.mod_eq_of_lt]
  omega

/-- The word of `INIT` as a number (R71, R77). -/
theorem encode_init_toNat {var : Variant} {nn kk : Nat} (hn : nn < 256) (hk : kk < 256) :
    (encode (.init var nn kk)).toNat =
      0x02000000 + (bitOfVariant var).toNat * 0x10000 + 256 * kk + nn := by
  rw [encode_toNat]
  simp only [opcode, operandField]
  omega

/-- The word of a command with a byte operand as a number (R71). -/
theorem encode_keyb_toNat (b : Byte) : (encode (.keyb b)).toNat = 0x03000000 + b.toNat := by
  rw [encode_toNat]
  simp only [opcode, operandField]
  omega

theorem encode_datab_toNat (b : Byte) : (encode (.datab b)).toNat = 0x04000000 + b.toNat := by
  rw [encode_toNat]
  simp only [opcode, operandField]
  omega

/-- The word of a read command as a number (R71). -/
theorem encode_rdreg_toNat {idx : Nat} (h : idx < 256) :
    (encode (.rdreg idx)).toNat = 0x09000000 + idx := by
  rw [encode_toNat]
  simp only [opcode, operandField]
  omega

theorem encode_rddig_toNat {idx : Nat} (h : idx < 256) :
    (encode (.rddig idx)).toNat = 0x0A000000 + idx := by
  rw [encode_toNat]
  simp only [opcode, operandField]
  omega

theorem encode_rdrom_toNat {addr : Nat} (h : addr < 512) :
    (encode (.rdrom addr)).toNat = 0x0B000000 + addr := by
  rw [encode_toNat]
  simp only [opcode, operandField]
  omega

@[simp] theorem variantOfBit_bitOfVariant (v : Variant) : variantOfBit (bitOfVariant v) = v := by
  cases v <;> rfl

@[simp] theorem bitOfVariant_variantOfBit (b : BitVec 1) : bitOfVariant (variantOfBit b) = b := by
  revert b; decide

end Sys2Proof
end

