-- ==== Sys2Proof/Laws/Memory.lean ====
section
/-! SUPPORT. The laws of the block buffer: read after write, and every operation keeps the canonical
form. -/

namespace Sys2Proof.Machine

@[simp] theorem read_nil (x : Nat) : Memory.read [] x = 0 := rfl

theorem wf_nil : Memory.wf [] := by simp [Memory.wf]

/-- An address below every listed one reads as an unlisted one. -/
theorem read_below {m : Memory} {x : Nat} (h : ∀ c ∈ m, x < c.1) : Memory.read m x = 0 := by
  induction m with
  | nil => rfl
  | cons c m ih =>
    have hc : c.1 ≠ x := Nat.ne_of_gt (h c (by simp))
    simp only [Memory.read, if_neg hc]
    exact ih fun d hd => h d (by simp [hd])

/-- A write leaves every other address alone. -/
theorem read_write_other (m : Memory) {x y : Nat} (v : Byte) (h : y ≠ x) :
    Memory.read (Memory.write m x v) y = Memory.read m y := by
  induction m with
  | nil => by_cases hv : v = unlistedByte <;> simp [Memory.write, Memory.read, hv, h.symm]; rfl
  | cons c m ih =>
    obtain ⟨a, b⟩ := c
    unfold Memory.write
    split_ifs with h1 h2 h3 h4
    · rfl
    · simp only [Memory.read, if_neg h.symm]
    · subst h3
      simp only [Memory.read, if_neg h.symm]
    · subst h3
      simp only [Memory.read, if_neg h.symm]
    · simp only [Memory.read, ih]

/-- A write is read back. -/
theorem read_write_same {m : Memory} (hm : Memory.wf m) (x : Nat) (v : Byte) :
    Memory.read (Memory.write m x v) x = v := by
  induction m with
  | nil => by_cases hv : v = unlistedByte <;> simp [Memory.write, Memory.read, hv]; rfl
  | cons c m ih =>
    obtain ⟨a, b⟩ := c
    obtain ⟨hp, hall⟩ := hm
    rw [List.pairwise_cons] at hp
    have hm' : Memory.wf m := ⟨hp.2, fun d hd => hall d (by simp [hd])⟩
    unfold Memory.write
    split_ifs with h1 h2 h3 h4
    · subst h2
      refine read_below fun d hd => ?_
      rcases List.mem_cons.1 hd with rfl | hd
      · exact h1
      · exact Nat.lt_trans h1 (hp.1 d hd)
    · simp [Memory.read]
    · subst h3 h4
      exact read_below fun d hd => hp.1 d hd
    · simp [Memory.read]
    · simp only [Memory.read, if_neg (Ne.symm h3)]
      exact ih hm'

/-- The addresses of a written buffer are the old ones and the written one. -/
theorem mem_write_addr {m : Memory} {x : Nat} {v : Byte} {c : Host.Cell}
    (h : c ∈ Memory.write m x v) : c.1 = x ∨ c ∈ m := by
  induction m with
  | nil =>
    by_cases hv : v = unlistedByte <;> simp_all [Memory.write]
  | cons d m ih =>
    obtain ⟨a, b⟩ := d
    unfold Memory.write at h
    split_ifs at h <;> simp_all
    · rcases h with rfl | h <;> simp_all
    · rcases h with rfl | h <;> simp_all
    · rcases h with rfl | h
      · simp
      · rcases ih h with h | h <;> simp [h]

/-- A write inside `BUF` keeps the canonical form. -/
theorem write_wf {m : Memory} (hm : Memory.wf m) {x : Nat} (hx : x < bufSize) (v : Byte) :
    Memory.wf (Memory.write m x v) := by
  induction m with
  | nil => by_cases hv : v = unlistedByte <;> simp [Memory.write, Memory.wf, hv, hx]
  | cons c m ih =>
    obtain ⟨a, b⟩ := c
    obtain ⟨hp, hall⟩ := hm
    have hp' := List.pairwise_cons.1 hp
    have hab := hall (a, b) (by simp)
    have hall' : ∀ d ∈ m, d.2 ≠ unlistedByte ∧ d.1 < bufSize := fun d hd => hall d (by simp [hd])
    have hm' : Memory.wf m := ⟨hp'.2, hall'⟩
    unfold Memory.write
    split_ifs with h1 h2 h3 h4
    · exact ⟨hp, hall⟩
    · refine ⟨List.pairwise_cons.2 ⟨fun d hd => ?_, hp⟩, fun d hd => ?_⟩
      · rcases List.mem_cons.1 hd with rfl | hd
        · exact h1
        · exact Nat.lt_trans h1 (hp'.1 d hd)
      · rcases List.mem_cons.1 hd with rfl | hd
        · exact ⟨h2, hx⟩
        · exact hall d hd
    · exact hm'
    · subst h3
      exact ⟨List.pairwise_cons.2 ⟨hp'.1, hp'.2⟩, fun d hd => by
        rcases List.mem_cons.1 hd with rfl | hd
        · exact ⟨h4, hx⟩
        · exact hall' d hd⟩
    · have hw := ih hm'
      refine ⟨List.pairwise_cons.2 ⟨fun d hd => ?_, hw.1⟩, fun d hd => ?_⟩
      · rcases mem_write_addr hd with h | h
        · rw [h]; simp only; omega
        · exact hp'.1 d h
      · rcases List.mem_cons.1 hd with rfl | hd
        · exact hab
        · exact hw.2 d hd

/-- A canonical buffer reads 0 where `BUF` has no address. -/
theorem read_beyond {m : Memory} (hm : Memory.wf m) {x : Nat} (hx : bufSize ≤ x) :
    Memory.read m x = 0 := by
  induction m with
  | nil => rfl
  | cons c m ih =>
    have hc := (hm.2 c (by simp)).2
    have hm' : Memory.wf m := ⟨(List.pairwise_cons.1 hm.1).2, fun d hd => hm.2 d (by simp [hd])⟩
    have : c.1 ≠ x := by omega
    simp only [Memory.read, if_neg this]
    exact ih hm'

@[simp] theorem bufBytes_length (m : Memory) (a n : Nat) : (bufBytes m a n).length = n := by
  induction n generalizing a with
  | zero => rfl
  | succ n ih => simp [bufBytes, ih]

/-- `MemRead` is the little-endian integer of the bytes read (R10, R52). -/
theorem memRead_eq_leNat (m : Memory) (a n : Nat) : memRead m a n = leNat (bufBytes m a n) := by
  induction n generalizing a with
  | zero => rfl
  | succ n ih => simp [memRead, bufBytes, leNat, ih]

theorem bufBytes_drop (m : Memory) (a n k : Nat) :
    (bufBytes m a n).drop k = bufBytes m (a + k) (n - k) := by
  induction k generalizing a n with
  | zero => simp
  | succ k ih =>
    cases n with
    | zero => simp [bufBytes]
    | succ n => simp [bufBytes, ih, Nat.add_assoc, Nat.add_comm 1 k]

theorem bufBytes_take (m : Memory) (a n k : Nat) :
    (bufBytes m a n).take k = bufBytes m a (min k n) := by
  induction k generalizing a n with
  | zero => simp [bufBytes]
  | succ k ih =>
    cases n with
    | zero => simp [bufBytes]
    | succ n =>
      have : min (k + 1) (n + 1) = min k n + 1 := by omega
      simp [bufBytes, ih, this]

theorem bufBytes_get (m : Memory) (a n i : Nat) (h : i < n) :
    (bufBytes m a n)[i]? = some (Memory.read m (a + i)) := by
  induction i generalizing a n with
  | zero => cases n with
    | zero => omega
    | succ n => simp [bufBytes]
  | succ i ih => cases n with
    | zero => omega
    | succ n =>
      simp only [bufBytes, List.getElem?_cons_succ]
      rw [ih (a + 1) n (by omega)]
      congr 2; omega

end Sys2Proof.Machine
end

