-- ==== Sys2Proof/Laws/State.lean ====
section
/-! SUPPORT. One lemma for each field and each operation that builds a state: what the field holds
after it. No later proof unfolds a record update. -/

namespace Sys2Proof.Machine

/-! `respond` -/

@[simp] theorem respond_h (rc : BitVec 4) (d : Word) (s : State) : (respond rc d s).h = s.h := rfl
@[simp] theorem respond_t (rc : BitVec 4) (d : Word) (s : State) : (respond rc d s).t = s.t := rfl
@[simp] theorem respond_var (rc : BitVec 4) (d : Word) (s : State) : (respond rc d s).var = s.var := rfl
@[simp] theorem respond_kk (rc : BitVec 4) (d : Word) (s : State) : (respond rc d s).kk = s.kk := rfl
@[simp] theorem respond_nn (rc : BitVec 4) (d : Word) (s : State) : (respond rc d s).nn = s.nn := rfl
@[simp] theorem respond_phase (rc : BitVec 4) (d : Word) (s : State) : (respond rc d s).phase = s.phase := rfl
@[simp] theorem respond_err (rc : BitVec 4) (d : Word) (s : State) : (respond rc d s).err = s.err := rfl
@[simp] theorem respond_c (rc : BitVec 4) (d : Word) (s : State) : (respond rc d s).c = s.c := rfl
@[simp] theorem respond_buf (rc : BitVec 4) (d : Word) (s : State) : (respond rc d s).buf = s.buf := rfl
@[simp] theorem respond_work (rc : BitVec 4) (d : Word) (s : State) : (respond rc d s).work = s.work := rfl
@[simp] theorem respond_r (rc : BitVec 4) (d : Word) (s : State) : (respond rc d s).r = s.r := rfl
@[simp] theorem respond_g (rc : BitVec 4) (d : Word) (s : State) : (respond rc d s).g = s.g := rfl
@[simp] theorem respond_input (rc : BitVec 4) (d : Word) (s : State) : (respond rc d s).input = s.input := rfl
@[simp] theorem respond_response (rc : BitVec 4) (d : Word) (s : State) : (respond rc d s).response = some ⟨rc, d⟩ := rfl

/-! `zeroed` -/

@[simp] theorem zeroed_h (p : Phase) (e : Option EngineFault) (s : State) : (zeroed p e s).h = Vector.replicate 8 0 := rfl
@[simp] theorem zeroed_t (p : Phase) (e : Option EngineFault) (s : State) : (zeroed p e s).t = 0 := rfl
@[simp] theorem zeroed_var (p : Phase) (e : Option EngineFault) (s : State) : (zeroed p e s).var = .B := rfl
@[simp] theorem zeroed_kk (p : Phase) (e : Option EngineFault) (s : State) : (zeroed p e s).kk = 0 := rfl
@[simp] theorem zeroed_nn (p : Phase) (e : Option EngineFault) (s : State) : (zeroed p e s).nn = 0 := rfl
@[simp] theorem zeroed_phase (p : Phase) (e : Option EngineFault) (s : State) : (zeroed p e s).phase = p := rfl
@[simp] theorem zeroed_err (p : Phase) (e : Option EngineFault) (s : State) : (zeroed p e s).err = e := rfl
@[simp] theorem zeroed_c (p : Phase) (e : Option EngineFault) (s : State) : (zeroed p e s).c = 0 := rfl
@[simp] theorem zeroed_buf (p : Phase) (e : Option EngineFault) (s : State) : (zeroed p e s).buf = [] := rfl
@[simp] theorem zeroed_work (p : Phase) (e : Option EngineFault) (s : State) : (zeroed p e s).work = s.work := rfl
@[simp] theorem zeroed_r (p : Phase) (e : Option EngineFault) (s : State) : (zeroed p e s).r = s.r := rfl
@[simp] theorem zeroed_g (p : Phase) (e : Option EngineFault) (s : State) : (zeroed p e s).g = s.g := rfl
@[simp] theorem zeroed_input (p : Phase) (e : Option EngineFault) (s : State) : (zeroed p e s).input = s.input := rfl
@[simp] theorem zeroed_response (p : Phase) (e : Option EngineFault) (s : State) : (zeroed p e s).response = s.response := rfl

/-! `raiseFault` (R196) -/

@[simp] theorem raiseFault_h (f : EngineFault) (s : State) : (raiseFault f s).h = Vector.replicate 8 0 := rfl
@[simp] theorem raiseFault_t (f : EngineFault) (s : State) : (raiseFault f s).t = 0 := rfl
@[simp] theorem raiseFault_var (f : EngineFault) (s : State) : (raiseFault f s).var = .B := rfl
@[simp] theorem raiseFault_kk (f : EngineFault) (s : State) : (raiseFault f s).kk = 0 := rfl
@[simp] theorem raiseFault_nn (f : EngineFault) (s : State) : (raiseFault f s).nn = 0 := rfl
@[simp] theorem raiseFault_phase (f : EngineFault) (s : State) : (raiseFault f s).phase = .fault := rfl
@[simp] theorem raiseFault_err (f : EngineFault) (s : State) : (raiseFault f s).err = some f := rfl
@[simp] theorem raiseFault_c (f : EngineFault) (s : State) : (raiseFault f s).c = 0 := rfl
@[simp] theorem raiseFault_buf (f : EngineFault) (s : State) : (raiseFault f s).buf = [] := rfl
@[simp] theorem raiseFault_work (f : EngineFault) (s : State) : (raiseFault f s).work = s.work := rfl
@[simp] theorem raiseFault_r (f : EngineFault) (s : State) : (raiseFault f s).r = s.r := rfl
@[simp] theorem raiseFault_g (f : EngineFault) (s : State) : (raiseFault f s).g = s.g := rfl
@[simp] theorem raiseFault_input (f : EngineFault) (s : State) : (raiseFault f s).input = s.input := rfl
@[simp] theorem raiseFault_response (f : EngineFault) (s : State) : (raiseFault f s).response = some ⟨faultCode f, 0⟩ := rfl

/-! `reject` (R198) -/

@[simp] theorem reject_h (s : State) : (reject s).h = s.h := rfl
@[simp] theorem reject_t (s : State) : (reject s).t = s.t := rfl
@[simp] theorem reject_var (s : State) : (reject s).var = s.var := rfl
@[simp] theorem reject_kk (s : State) : (reject s).kk = s.kk := rfl
@[simp] theorem reject_nn (s : State) : (reject s).nn = s.nn := rfl
@[simp] theorem reject_phase (s : State) : (reject s).phase = s.phase := rfl
@[simp] theorem reject_err (s : State) : (reject s).err = s.err := rfl
@[simp] theorem reject_c (s : State) : (reject s).c = s.c := rfl
@[simp] theorem reject_buf (s : State) : (reject s).buf = s.buf := rfl
@[simp] theorem reject_work (s : State) : (reject s).work = s.work := rfl
@[simp] theorem reject_r (s : State) : (reject s).r = s.r := rfl
@[simp] theorem reject_g (s : State) : (reject s).g = s.g := rfl
@[simp] theorem reject_input (s : State) : (reject s).input = s.input := rfl
@[simp] theorem reject_response (s : State) : (reject s).response = some ⟨15, 0⟩ := rfl

/-! `resetEngine` (R153) -/

@[simp] theorem resetEngine_h (s : State) : (resetEngine s).h = Vector.replicate 8 0 := rfl
@[simp] theorem resetEngine_t (s : State) : (resetEngine s).t = 0 := rfl
@[simp] theorem resetEngine_var (s : State) : (resetEngine s).var = .B := rfl
@[simp] theorem resetEngine_kk (s : State) : (resetEngine s).kk = 0 := rfl
@[simp] theorem resetEngine_nn (s : State) : (resetEngine s).nn = 0 := rfl
@[simp] theorem resetEngine_phase (s : State) : (resetEngine s).phase = .idle := rfl
@[simp] theorem resetEngine_err (s : State) : (resetEngine s).err = none := rfl
@[simp] theorem resetEngine_c (s : State) : (resetEngine s).c = 0 := rfl
@[simp] theorem resetEngine_buf (s : State) : (resetEngine s).buf = [] := rfl
@[simp] theorem resetEngine_work (s : State) : (resetEngine s).work = none := rfl
@[simp] theorem resetEngine_r (s : State) : (resetEngine s).r = 0 := rfl
@[simp] theorem resetEngine_g (s : State) : (resetEngine s).g = 0 := rfl
@[simp] theorem resetEngine_input (s : State) : (resetEngine s).input = s.input := rfl
@[simp] theorem resetEngine_response (s : State) : (resetEngine s).response = some ⟨0, 0⟩ := rfl

/-! `hardwareReset` (R220) -/

@[simp] theorem hardwareReset_h (s : State) : (hardwareReset s).h = Vector.replicate 8 0 := rfl
@[simp] theorem hardwareReset_t (s : State) : (hardwareReset s).t = 0 := rfl
@[simp] theorem hardwareReset_var (s : State) : (hardwareReset s).var = .B := rfl
@[simp] theorem hardwareReset_kk (s : State) : (hardwareReset s).kk = 0 := rfl
@[simp] theorem hardwareReset_nn (s : State) : (hardwareReset s).nn = 0 := rfl
@[simp] theorem hardwareReset_phase (s : State) : (hardwareReset s).phase = .idle := rfl
@[simp] theorem hardwareReset_err (s : State) : (hardwareReset s).err = none := rfl
@[simp] theorem hardwareReset_c (s : State) : (hardwareReset s).c = 0 := rfl
@[simp] theorem hardwareReset_buf (s : State) : (hardwareReset s).buf = [] := rfl
@[simp] theorem hardwareReset_work (s : State) : (hardwareReset s).work = none := rfl
@[simp] theorem hardwareReset_r (s : State) : (hardwareReset s).r = 0 := rfl
@[simp] theorem hardwareReset_g (s : State) : (hardwareReset s).g = 0 := rfl
@[simp] theorem hardwareReset_input (s : State) : (hardwareReset s).input = s.input := rfl
@[simp] theorem hardwareReset_response (s : State) : (hardwareReset s).response = none := rfl

/-! `beginInvocation` (R155) -/

@[simp] theorem beginInvocation_h (v : Variant) (n k : Nat) (s : State) : (beginInvocation v n k s).h = store8 v (initHash v n k) := rfl
@[simp] theorem beginInvocation_t (v : Variant) (n k : Nat) (s : State) : (beginInvocation v n k s).t = 0 := rfl
@[simp] theorem beginInvocation_var (v : Variant) (n k : Nat) (s : State) : (beginInvocation v n k s).var = v := rfl
@[simp] theorem beginInvocation_kk (v : Variant) (n k : Nat) (s : State) : (beginInvocation v n k s).kk = BitVec.ofNat 8 k := rfl
@[simp] theorem beginInvocation_nn (v : Variant) (n k : Nat) (s : State) : (beginInvocation v n k s).nn = BitVec.ofNat 8 n := rfl
@[simp] theorem beginInvocation_phase (v : Variant) (n k : Nat) (s : State) : (beginInvocation v n k s).phase = (if 0 < k then Phase.key else Phase.data) := rfl
@[simp] theorem beginInvocation_err (v : Variant) (n k : Nat) (s : State) : (beginInvocation v n k s).err = s.err := rfl
@[simp] theorem beginInvocation_c (v : Variant) (n k : Nat) (s : State) : (beginInvocation v n k s).c = 0 := rfl
@[simp] theorem beginInvocation_buf (v : Variant) (n k : Nat) (s : State) : (beginInvocation v n k s).buf = [] := rfl
@[simp] theorem beginInvocation_work (v : Variant) (n k : Nat) (s : State) : (beginInvocation v n k s).work = s.work := rfl
@[simp] theorem beginInvocation_r (v : Variant) (n k : Nat) (s : State) : (beginInvocation v n k s).r = s.r := rfl
@[simp] theorem beginInvocation_g (v : Variant) (n k : Nat) (s : State) : (beginInvocation v n k s).g = s.g := rfl
@[simp] theorem beginInvocation_input (v : Variant) (n k : Nat) (s : State) : (beginInvocation v n k s).input = s.input := rfl
@[simp] theorem beginInvocation_response (v : Variant) (n k : Nat) (s : State) : (beginInvocation v n k s).response = s.response := rfl

/-- What the ticks of a compression start from: the calls begin at `(r, g) = (0, 0)` (R135). -/
def startSequencer (final : Bool) (s : State) : Sequencer :=
  { v := (startWorking final s).v, m := (startWorking final s).m, r := 0, g := 0 }

/-! `compress` (R137): it writes `H` and its own transient registers, nothing else (R130). That `r` and `g`
are 0 after it is `compress_r`, `compress_g` of Laws/Ops.lean -/

@[simp] theorem compress_h (f : Bool) (s : State) : (compress f s).h =
    store8 s.var (feedForward (load8 s.var s.h)
      (load16 s.var (ticks s.var (8 * s.var.rounds) (startSequencer f s)).v)) := rfl
@[simp] theorem compress_t (f : Bool) (s : State) : (compress f s).t = s.t := rfl
@[simp] theorem compress_var (f : Bool) (s : State) : (compress f s).var = s.var := rfl
@[simp] theorem compress_kk (f : Bool) (s : State) : (compress f s).kk = s.kk := rfl
@[simp] theorem compress_nn (f : Bool) (s : State) : (compress f s).nn = s.nn := rfl
@[simp] theorem compress_phase (f : Bool) (s : State) : (compress f s).phase = s.phase := rfl
@[simp] theorem compress_err (f : Bool) (s : State) : (compress f s).err = s.err := rfl
@[simp] theorem compress_c (f : Bool) (s : State) : (compress f s).c = s.c := rfl
@[simp] theorem compress_buf (f : Bool) (s : State) : (compress f s).buf = s.buf := rfl
@[simp] theorem compress_work (f : Bool) (s : State) : (compress f s).work = none := rfl
@[simp] theorem compress_input (f : Bool) (s : State) : (compress f s).input = s.input := rfl
@[simp] theorem compress_response (f : Bool) (s : State) : (compress f s).response = s.response := rfl

/-! `compressEvent` (R164, R167) -/

@[simp] theorem compressEvent_h (f : Bool) (n : Nat) (s : State) :
    (compressEvent f n s).h = (compress f { s with t := s.t + BitVec.ofNat 128 n }).h := rfl
@[simp] theorem compressEvent_t (f : Bool) (n : Nat) (s : State) :
    (compressEvent f n s).t = s.t + BitVec.ofNat 128 n := rfl
@[simp] theorem compressEvent_var (f : Bool) (n : Nat) (s : State) :
    (compressEvent f n s).var = s.var := rfl
@[simp] theorem compressEvent_kk (f : Bool) (n : Nat) (s : State) :
    (compressEvent f n s).kk = s.kk := rfl
@[simp] theorem compressEvent_nn (f : Bool) (n : Nat) (s : State) :
    (compressEvent f n s).nn = s.nn := rfl
@[simp] theorem compressEvent_phase (f : Bool) (n : Nat) (s : State) :
    (compressEvent f n s).phase = s.phase := rfl
@[simp] theorem compressEvent_err (f : Bool) (n : Nat) (s : State) :
    (compressEvent f n s).err = s.err := rfl
@[simp] theorem compressEvent_c (f : Bool) (n : Nat) (s : State) :
    (compressEvent f n s).c = 0 := rfl
@[simp] theorem compressEvent_buf (f : Bool) (n : Nat) (s : State) :
    (compressEvent f n s).buf = [] := rfl
@[simp] theorem compressEvent_work (f : Bool) (n : Nat) (s : State) :
    (compressEvent f n s).work = none := rfl
@[simp] theorem compressEvent_r (f : Bool) (n : Nat) (s : State) :
    (compressEvent f n s).r = (compress f { s with t := s.t + BitVec.ofNat 128 n }).r := rfl
@[simp] theorem compressEvent_g (f : Bool) (n : Nat) (s : State) :
    (compressEvent f n s).g = (compress f { s with t := s.t + BitVec.ofNat 128 n }).g := rfl
@[simp] theorem compressEvent_input (f : Bool) (n : Nat) (s : State) :
    (compressEvent f n s).input = s.input := rfl
@[simp] theorem compressEvent_response (f : Bool) (n : Nat) (s : State) :
    (compressEvent f n s).response = s.response := rfl

end Sys2Proof.Machine
end

