-- ==== Sys2Proof/Laws/Words.lean ====
section
/-! SUPPORT. Register files by their elements, 64-bit storage of `W`-bit words, and the two views of the
rounds of a compression. -/

namespace Sys2Proof

@[simp] theorem vec8_get {α : Type} (f : Fin 8 → α) (i : Fin 8) : (vec8 f)[i] = f i := by
  fin_cases i <;> rfl

@[simp] theorem vec16_get {α : Type} (f : Fin 16 → α) (i : Fin 16) : (vec16 f)[i] = f i := by
  fin_cases i <;> rfl

@[simp] theorem vec8_getElem {α : Type} (f : Fin 8 → α) (i : Nat) (h : i < 8) :
    (vec8 f)[i] = f ⟨i, h⟩ := vec8_get f ⟨i, h⟩

@[simp] theorem vec16_getElem {α : Type} (f : Fin 16 → α) (i : Nat) (h : i < 16) :
    (vec16 f)[i] = f ⟨i, h⟩ := vec16_get f ⟨i, h⟩

/-- The rounds of a variant are `0` to `R - 1` in order (R135). -/
theorem roundIndices_eq_range (var : Variant) :
    var.roundIndices.map Fin.val = List.range var.rounds := by cases var <;> decide

theorem roundIndices_length (var : Variant) : var.roundIndices.length = var.rounds := by
  cases var <;> rfl

theorem wordBits_le (var : Variant) : var.wordBits ≤ 64 := by cases var <;> decide

theorem wordBits_eq_bytes (var : Variant) : var.wordBits = 8 * var.wordBytes := by cases var <;> rfl

theorem blockBytes_eq_words (var : Variant) : var.blockBytes = 16 * var.wordBytes := by
  cases var <;> rfl

/-- A key never fills a block (R161). -/
theorem kkMax_lt_blockBytes (var : Variant) : var.kkMax < var.blockBytes := by cases var <;> decide

theorem blockBytes_le (var : Variant) : var.blockBytes ≤ 128 := by cases var <;> decide

theorem blockBytes_pos (var : Variant) : 0 < var.blockBytes := by cases var <;> decide

end Sys2Proof

namespace Sys2Proof.Machine

/-- What is stored is loaded again: storage loses nothing of a `W`-bit word (R38). -/
@[simp] theorem load_store (var : Variant) (x : BitVec var.wordBits) :
    load var (store var x) = x := by
  apply BitVec.eq_of_toNat_eq
  have hx := x.isLt
  have hw : 2 ^ var.wordBits ≤ 2 ^ 64 := Nat.pow_le_pow_right (by decide) (wordBits_le var)
  rw [load, store, BitVec.toNat_setWidth, BitVec.toNat_setWidth, Nat.mod_eq_of_lt (by omega : x.toNat < 2 ^ 64),
    Nat.mod_eq_of_lt hx]

@[simp] theorem load8_store8 (var : Variant) (h : Vector (BitVec var.wordBits) 8) :
    load8 var (store8 var h) = h := by
  ext i hi
  simp [load8, store8]

@[simp] theorem load16_store16 (var : Variant) (v : Vector (BitVec var.wordBits) 16) :
    load16 var (store16 var v) = v := by
  ext i hi
  simp [load16, store16]

/-- Stored words are below `2^W` (R38, R41 item 10). -/
theorem store_toNat_lt (var : Variant) (x : BitVec var.wordBits) :
    (store var x).toNat < 2 ^ var.wordBits := by
  rw [store, BitVec.toNat_setWidth]
  exact Nat.lt_of_le_of_lt (Nat.mod_le _ _) x.isLt

theorem store8_get_toNat_lt (var : Variant) (h : Vector (BitVec var.wordBits) 8) (i : Fin 8) :
    (store8 var h)[i].toNat < 2 ^ var.wordBits := by
  simp only [store8, vec8_get]
  exact store_toNat_lt _ _

end Sys2Proof.Machine
end

