-- ==== Sys2Proof/Laws/Ops.lean ====
section
/-! SUPPORT. What each shared operation can do, said once: the phase check, absorbing a byte, a
compression, the delivery of a host event. -/

namespace Sys2Proof.Machine

/-- A word in `FAULT` that may not execute is rejected (R198). -/
theorem unlessFaulted_fault {s : State} (h : s.phase = .fault) (k : Result) :
    unlessFaulted s k = .next (reject s) := by simp [unlessFaulted, h]

theorem unlessFaulted_run {s : State} (h : s.phase ≠ .fault) (k : Result) :
    unlessFaulted s k = k := by simp [unlessFaulted, h]

theorem permittedIn_fault {s : State} (h : s.phase = .fault) (ps : List Phase) (k : Result) :
    permittedIn ps s k = .next (reject s) := unlessFaulted_fault h _

/-- A permitted command runs (R151). -/
theorem permittedIn_allowed {s : State} {ps : List Phase} (h : s.phase ∈ ps) (hf : s.phase ≠ .fault)
    (k : Result) : permittedIn ps s k = k := by simp [permittedIn, unlessFaulted, h, hf]

/-- A command that is not permitted takes `SequenceError` (R192). -/
theorem permittedIn_sequence {s : State} {ps : List Phase} (h : s.phase ∉ ps) (hf : s.phase ≠ .fault)
    (k : Result) : permittedIn ps s k = .next (raiseFault .sequenceError s) := by
  simp [permittedIn, unlessFaulted, h, hf]

/-- Everything a phase check can answer. -/
theorem permittedIn_next {ps : List Phase} {s t : State} {k : Result}
    (h : permittedIn ps s k = .next t) :
    (s.phase = .fault ∧ t = reject s) ∨
    (s.phase ≠ .fault ∧ s.phase ∉ ps ∧ t = raiseFault .sequenceError s) ∨
    (s.phase ≠ .fault ∧ s.phase ∈ ps ∧ k = .next t) := by
  by_cases hf : s.phase = .fault
  · rw [permittedIn_fault hf] at h
    exact .inl ⟨hf, by simpa using h.symm⟩
  · by_cases hp : s.phase ∈ ps
    · rw [permittedIn_allowed hp hf] at h
      exact .inr (.inr ⟨hf, hp, h⟩)
    · rw [permittedIn_sequence hp hf] at h
      exact .inr (.inl ⟨hf, hp, by simpa using h.symm⟩)

/-- Everything the check for `FAULT` alone can answer. -/
theorem unlessFaulted_next {s t : State} {k : Result} (h : unlessFaulted s k = .next t) :
    (s.phase = .fault ∧ t = reject s) ∨ (s.phase ≠ .fault ∧ k = .next t) := by
  by_cases hf : s.phase = .fault
  · rw [unlessFaulted_fault hf] at h
    exact .inl ⟨hf, by simpa using h.symm⟩
  · rw [unlessFaulted_run hf] at h
    exact .inr ⟨hf, h⟩

/-- Absorbing a byte (R160, R164): it lands at address `C`, `C` counts it, nothing else changes. -/
theorem absorb_eq {s : State} (h : s.c.toNat < 128) (b : Byte) :
    absorb b s = some { s with buf := Memory.write s.buf s.c.toNat b, c := s.c + 1 } := by
  simp [absorb, bufSize, h]

theorem absorb_none {s : State} (h : 128 ≤ s.c.toNat) (b : Byte) : absorb b s = none := by
  have : ¬ s.c.toNat < bufSize := Nat.not_lt.2 h
  rw [absorb, if_neg this]

theorem absorb_some {b : Byte} {s t : State} (h : absorb b s = some t) :
    s.c.toNat < 128 ∧ t = { s with buf := Memory.write s.buf s.c.toNat b, c := s.c + 1 } := by
  by_cases hc : s.c.toNat < 128
  · rw [absorb_eq hc] at h
    exact ⟨hc, by simpa using h.symm⟩
  · rw [absorb_none (by omega)] at h
    simp at h

/-- The count after a byte is absorbed. -/
theorem c_succ_toNat {s : State} (h : s.c.toNat < 128) : (s.c + 1).toNat = s.c.toNat + 1 := by
  rw [BitVec.toNat_add]
  have : (1 : BitVec 8).toNat = 1 := rfl
  omega

/-- `n` more ticks after `k` are `k + n` ticks. -/
theorem ticks_add (var : Variant) (k n : Nat) (q : Sequencer) :
    ticks var (k + n) q = ticks var n (ticks var k q) := by
  induction k generalizing q with
  | zero => simp [ticks]
  | succ k ih => rw [Nat.succ_add, ticks, ticks, ih]

/-- The message words are not touched by a tick. -/
theorem tick_m (var : Variant) (q : Sequencer) : (tick var q).m = q.m := by
  unfold tick; split <;> rfl

theorem ticks_m (var : Variant) (n : Nat) (q : Sequencer) : (ticks var n q).m = q.m := by
  induction n generalizing q with
  | zero => rfl
  | succ n ih => rw [ticks, ih, tick_m]

/-- A tick in a round of the variant: one mixer call on the registers, then the next call (R135). -/
theorem tick_running (var : Variant) (q : Sequencer) (r : Fin 12) (g : Fin 8) (hr : r.val < var.rounds)
    (h1 : q.r = BitVec.ofNat 4 r.val) (h2 : q.g = BitVec.ofNat 3 g.val) :
    tick var q = { q with
      v := store16 var (mixCall var (load16 var q.m) r g (load16 var q.v))
      r := if g = 7 then nextRound var q.r else q.r
      g := q.g + 1 } := by
  have e1 : q.r.toNat = r.val := by rw [h1]; simp; omega
  have e2 : q.g.toFin = g := by rw [h2]; apply Fin.ext; simp
  unfold tick
  rw [dif_pos (by omega)]
  simp only [e1, e2]

/-- With a round index that no round has the sequencer rests (log 18). -/
theorem tick_resting (var : Variant) (q : Sequencer) (h : var.rounds ≤ q.r.toNat) : tick var q = q := by
  unfold tick
  rw [dif_neg (by omega)]

/-- How many mixer calls of a compression lie before `(r, g)` (R135). -/
def Sequencer.position (q : Sequencer) : Nat := 8 * q.r.toNat + q.g.toNat

/-- A tick moves to the next mixer call, from the last one back to `(0, 0)`, and stays in the rounds. -/
theorem tick_position (var : Variant) (q : Sequencer) (h : q.r.toNat < var.rounds) :
    (tick var q).position = (q.position + 1) % (8 * var.rounds) ∧
      (tick var q).r.toNat < var.rounds := by
  obtain ⟨v, m, r, g⟩ := q
  have hR := var.rounds_le
  have h4 : (r + 1).toNat = (r.toNat + 1) % 16 := by rw [BitVec.toNat_add]; rfl
  have h3 : (g + 1).toNat = (g.toNat + 1) % 8 := by rw [BitVec.toNat_add]; rfl
  have hg := g.isLt
  have h7 : g.toFin = (7 : Fin 8) ↔ g.toNat = 7 := by
    rw [Fin.ext_iff]; rfl
  replace h : r.toNat < var.rounds := h
  simp only [tick, dif_pos h, Sequencer.position, nextRound, h7, h3]
  split
  · split
    · rw [show (0 : BitVec 4).toNat = 0 from rfl, show 8 * r.toNat + g.toNat + 1 = 8 * var.rounds by omega,
        Nat.mod_self]
      omega
    · rw [h4, Nat.mod_eq_of_lt (by omega : 8 * r.toNat + g.toNat + 1 < 8 * var.rounds)]
      omega
  · rw [Nat.mod_eq_of_lt (by omega : 8 * r.toNat + g.toNat + 1 < 8 * var.rounds)]
    omega

/-- After `n` ticks `n` more mixer calls lie behind, modulo those of one compression. -/
theorem ticks_position (var : Variant) (n : Nat) (q : Sequencer) (h : q.r.toNat < var.rounds) :
    (ticks var n q).position = (q.position + n) % (8 * var.rounds) ∧
      (ticks var n q).r.toNat < var.rounds := by
  induction n generalizing q with
  | zero =>
    have := q.g.isLt
    refine ⟨(Nat.mod_eq_of_lt ?_).symm, h⟩
    show 8 * q.r.toNat + q.g.toNat < 8 * var.rounds
    omega
  | succ n ih =>
    have ht := tick_position var q h
    have hi := ih (tick var q) ht.2
    refine ⟨?_, hi.2⟩
    rw [ticks, hi.1, ht.1, Nat.mod_add_mod]
    congr 1
    omega

/-- The `8 * R` mixer calls of a compression end where they began, at `(r, g) = (0, 0)` (log 18). -/
theorem ticks_whole (var : Variant) (q : Sequencer) (hr : q.r = 0) (hg : q.g = 0) :
    (ticks var (8 * var.rounds) q).r = 0 ∧ (ticks var (8 * var.rounds) q).g = 0 := by
  have h0 : q.position = 0 := by simp [Sequencer.position, hr, hg]
  have h := (ticks_position var (8 * var.rounds) q (by rw [hr]; cases var <;> decide)).1
  rw [h0, Nat.zero_add, Nat.mod_self, Sequencer.position] at h
  exact ⟨BitVec.eq_of_toNat_eq (by simp; omega), BitVec.eq_of_toNat_eq (by simp; omega)⟩

@[simp] theorem compress_r (f : Bool) (s : State) : (compress f s).r = 0 :=
  (ticks_whole s.var (startSequencer f s) rfl rfl).1

@[simp] theorem compress_g (f : Bool) (s : State) : (compress f s).g = 0 :=
  (ticks_whole s.var (startSequencer f s) rfl rfl).2

/-- A compression as one record update: the sequencer's ticks, then the feed-forward. -/
theorem compress_eq (f : Bool) (s : State) :
    compress f s =
      { s with
        h := store8 s.var (feedForward (load8 s.var s.h)
          (load16 s.var (ticks s.var (8 * s.var.rounds) (startSequencer f s)).v))
        work := none
        r := 0
        g := 0 } := by
  have hr := compress_r f s
  have hg := compress_g f s
  rw [← hr, ← hg]
  rfl

/-- The register numbers that name nothing (R180). -/
theorem regOf_eq_none {i : Nat} : regOf i = none ↔ 11 < i := by
  unfold regOf; split_ifs <;> simp <;> omega

/-- The unassigned addresses of the ROM's nine-bit space (R117). -/
theorem rom_eq_none {a : Nat} (h : a < 512) :
    rom a = none ↔ (0x018 ≤ a ∧ a ≤ 0x0FF) ∨ (0x1C0 ≤ a ∧ a ≤ 0x1FF) := by
  unfold rom; split_ifs <;> simp <;> omega

/-- There is a digest byte `i` exactly below the end of `H[7]` (R182; log 8). -/
theorem digestByte_eq_none {s : State} {i : Nat} :
    digestByte s i = none ↔ 8 * s.var.wordBytes ≤ i := by
  have hw : 0 < s.var.wordBytes := by cases s.var <;> decide
  have := Nat.div_lt_iff_lt_mul hw (x := i) (y := 8)
  unfold digestByte
  split <;> simp <;> omega

/-- The message words of the registers are those of the block (R131, R52). -/
theorem load16_messageWords (var : Variant) (m : Memory) :
    load16 var (messageWords var m) = decodeBlock var (bufBytes m 0 var.blockBytes) := by
  refine congrArg vec16 (funext fun i => ?_)
  have hi : (messageWords var m)[i] =
      BitVec.ofNat 64 (memRead m (i.val * var.wordBytes) var.wordBytes) := vec16_get _ i
  have h16 : i.val * var.wordBytes + var.wordBytes ≤ var.blockBytes := by
    have := i.isLt
    rw [blockBytes_eq_words]
    nlinarith [var.wordBytes.zero_le]
  have hb : ((bufBytes m 0 var.blockBytes).drop (i.val * var.wordBytes)).take var.wordBytes =
      bufBytes m (i.val * var.wordBytes) var.wordBytes := by
    rw [bufBytes_drop, bufBytes_take, Nat.min_eq_left (by omega), Nat.zero_add]
  rw [hi, hb, memRead_eq_leNat]
  apply BitVec.eq_of_toNat_eq
  rw [load, BitVec.toNat_setWidth, BitVec.toNat_ofNat, BitVec.toNat_ofNat,
    Nat.mod_mod_of_dvd _ (Nat.pow_dvd_pow 2 (wordBits_le var))]

/-- What the delivery of a host event can be (R75, R84). -/
theorem deliver_cases (s : State) :
    (s.input = [] ∧ deliver s = .idle) ∨
    (∃ e rest, s.input = e :: rest ∧ (e = .hardReset ∨ ∃ w, e = .commandCut w) ∧
      deliver s = .resetTo (hardwareReset { s with input := rest })) ∨
    (∃ w rest, s.input = .command w :: rest ∧
      ((∃ why, decode w = .illegal why ∧ deliver s = .illegal { s with input := rest }) ∨
        ∃ i, decode w = .command i ∧ deliver s = .run i { s with input := rest })) := by
  unfold deliver
  rcases s.input with _ | ⟨e, rest⟩
  · simp
  · cases e with
    | command w => cases h : decode w <;> simp [h]
    | hardReset => simp
    | commandCut w => simp

end Sys2Proof.Machine
end

