-- ==== Sys2Proof/Laws/PerInstr.lean ====
section
/-! SUPPORT. Facts about every command as syntax, one lemma per constructor. Family `OpcodeInHighByte`:
bits 31:24 of a command's word are its opcode, whatever the operands (R70). -/

namespace Sys2Proof.Laws.OpcodeInHighByte

/-- Bits 31:24 of the word are the opcode. -/
def Statement (i : Instr) : Prop := (bits (encode i) 24 8).toNat = opcode i

theorem ofEncode (i : Instr) : Statement i := by
  have ho := opcode_lt i
  have hf := operandField_lt i
  rw [Statement, bits_toNat, encode_toNat]
  omega

theorem reset : Statement .reset := ofEncode _

theorem init (var : Variant) (nn kk : Nat) : Statement (.init var nn kk) := ofEncode _

theorem keyb (byte : Byte) : Statement (.keyb byte) := ofEncode _

theorem datab (byte : Byte) : Statement (.datab byte) := ofEncode _

theorem final : Statement .final := ofEncode _

theorem rdreg (idx : Nat) : Statement (.rdreg idx) := ofEncode _

theorem rddig (idx : Nat) : Statement (.rddig idx) := ofEncode _

theorem rdrom (addr : Nat) : Statement (.rdrom addr) := ofEncode _

end Sys2Proof.Laws.OpcodeInHighByte
end

