-- ==== Sys2Proof/Laws/Session.lean ====
section
/-! SUPPORT. When a list of commands has words (R80, R81). -/

namespace Sys2Proof.Machine

theorem assemble_of_wf {commands : List Instr} (h : commands.all Instr.wf = true) :
    assemble commands = some (commands.map encode) := if_pos h

/-- Everything `assemble` can answer with. -/
theorem assemble_eq_some {commands : List Instr} {words : List CmdWord} :
    assemble commands = some words ↔
      commands.all Instr.wf = true ∧ commands.map encode = words := by
  unfold assemble
  split <;> simp_all

theorem assemble_eq_none {commands : List Instr} :
    assemble commands = none ↔ commands.all Instr.wf = false := by
  unfold assemble
  split <;> simp_all

/-- Every key and every message has words. -/
theorem keyCommands_wf (key : List Byte) : (keyCommands key).all Instr.wf = true := by
  simp [keyCommands, Instr.wf]

theorem dataCommands_wf (data : List Byte) : (dataCommands data).all Instr.wf = true := by
  simp [dataCommands, Instr.wf]

/-- The indices of up to 256 digest bytes fit their field. -/
theorem digestCommands_wf {n : Nat} (h : n ≤ 256) : (digestCommands n).all Instr.wf = true := by
  simp only [digestCommands, List.all_map, List.all_eq_true, List.mem_range]
  intro i hi
  simpa [Instr.wf] using Nat.lt_of_lt_of_le hi h

end Sys2Proof.Machine
end

