-- ==== Sys2Proof/Tests/Slice0.lean ====
section
/-! SUPPORT. Tests of the model against values the spec prints, and, for every obligation with hypotheses,
a concrete case that meets them. Expected values come from spec/95_test_vectors.md (ids such as I12, X26)
or from the rule named; none comes from the model. -/

namespace Sys2Proof.Tests

open Sys2Proof Sys2Proof.Machine

/-! ## States to test on -/

/-- An engine in the middle of an invocation of the given lengths, before its first compression. -/
def scene (var : Variant) (nn kk : Nat) (phase : Phase) (c t : Nat) (buf : Memory) : State :=
  { State.reset with
    h := store8 var (initHash var nn kk)
    t := BitVec.ofNat 128 t
    var := var
    kk := BitVec.ofNat 8 kk
    nn := BitVec.ofNat 8 nn
    phase := phase
    c := BitVec.ofNat 8 c
    buf := buf }

/-- An engine in `FAULT`. -/
def broken : State := { State.reset with phase := .fault, err := some .invalidParameter }

/-- A finished B invocation of "abc" (program P1, the end state). -/
def doneB : State :=
  { scene .B 64 0 .done 0 3 [] with
    h := #v[0x0d4d1c983fa580ba, 0xe9f6129fb697276a, 0xb7c45a68142f214c, 0xd1a2ffdb6fbb124b,
      0x2d79ab2a39c5877d, 0x95cc3345ded552c2, 0x5a92f1dba88ad318, 0x239900d4ed8623b9] }

/-- A finished S invocation of "abc" (vector F9). -/
def doneS : State :=
  { scene .S 32 0 .done 0 3 [] with
    h := #v[0x8c5e8c50, 0xe2147c32, 0xa32ba7e1, 0x2f45eb4e, 0x208b4537, 0x293ad69e, 0x4c9b994d,
      0x82596786] }

/-- The state after presenting a word; the old state if the machine stops. -/
def after (w : CmdWord) (s : State) : State :=
  match present w s with
  | .next t => t
  | _ => s

/-- Response code, response value and `STATUS` after presenting a word. -/
def answer (w : CmdWord) (s : State) : Option (Nat × Nat × Nat) :=
  (after w s).response.map fun r => (r.rc.toNat, r.data.toNat, (statusWord (after w s)).toNat)

/-! ## WellFormed: each check refuses -/

theorem test_wf_init_nn : (Instr.init .B 256 0).wf = false := by decide
theorem test_wf_init_kk : (Instr.init .S 1 256).wf = false := by decide
theorem test_wf_rdreg : (Instr.rdreg 256).wf = false := by decide
theorem test_wf_rddig : (Instr.rddig 256).wf = false := by decide
theorem test_wf_rdrom : (Instr.rdrom 512).wf = false := by decide
theorem test_wf_accepts : (Instr.init .B 255 255).wf ∧ (Instr.rdrom 511).wf := by decide

/-! ## Decoding (section 2.4) -/

theorem test_decode_legal :
    decode 0x01000000 = .command .reset ∧ decode 0x0201071c = .command (.init .S 28 7) ∧
    decode 0x02001014 = .command (.init .B 20 16) ∧ decode 0x0200ffff = .command (.init .B 255 255) ∧
    decode 0x030000ff = .command (.keyb 0xff) ∧ decode 0x0400006b = .command (.datab 0x6b) ∧
    decode 0x05000000 = .command .final ∧ decode 0x0900000c = .command (.rdreg 12) ∧
    decode 0x0a0000ff = .command (.rddig 255) ∧ decode 0x0b0001ff = .command (.rdrom 0x1ff) := by
  decide

theorem test_decode_illegal :
    decode 0x01800000 = .illegal (.reservedBits 1) ∧ decode 0x02800000 = .illegal (.reservedBits 2) ∧
    decode 0x03000100 = .illegal (.reservedBits 3) ∧ decode 0x04010000 = .illegal (.reservedBits 4) ∧
    decode 0x05000001 = .illegal (.reservedBits 5) ∧ decode 0x09000100 = .illegal (.reservedBits 9) ∧
    decode 0x0a010000 = .illegal (.reservedBits 10) ∧
    decode 0x0b000200 = .illegal (.reservedBits 11) ∧
    decode 0x08000000 = .illegal (.unassignedOpcode 8) ∧
    decode 0xffffffff = .illegal (.unassignedOpcode 255) := by
  decide

/-- The byte string of E6 over a transport that sends the high byte first, and a short string (log 10). -/
theorem test_decode_bytes :
    decodeBytes Fin.revPerm [0x02, 0x01, 0x00, 0x20] = .command (.init .S 32 0) ∧
    decodeBytes (Equiv.refl _) [0x20, 0x00, 0x01, 0x02] = .command (.init .S 32 0) ∧
    decodeBytes (Equiv.refl _) [0x20] = .illegal (.notOneWord 1) := by
  decide

/-- No word stands in two rows of R72: two rows differ in a bit both fix. -/
theorem test_rows_disjoint :
    opcodeMap.Pairwise fun r q => (r.pattern ^^^ q.pattern) &&& (r.mask &&& q.mask) ≠ 0 := by
  decide

/-! ## Constants (section 2.3, R119) -/

/-- M3, M5, M9, M12, M15, M16, M20, M22, M26, M27. -/
theorem test_rom :
    rom 0x007 = some 0x5be0cd19137e2179 ∧ rom 0x00f = some 0x5be0cd19 ∧ rom 0x013 = some 0x3f ∧
    rom 0x016 = some 8 ∧ rom 0x0ff = none ∧ rom 0x100 = some 0 ∧ rom 0x11f = some 3 ∧
    rom 0x19f = some 0 ∧ rom 0x1bf = some 3 ∧ rom 0x1c0 = none := by
  decide

/-- "Each row is a permutation of 0 to 15" (R119). -/
theorem test_sigma_rows : ∀ r : Fin 12, sigma[r].toList.Perm (List.finRange 16) := by decide

/-- The transcription check of section 2.3: the sum of all items of the ROM. -/
theorem test_rom_sum :
    ((List.range 512).map fun a => ((rom a).getD 0).toNat).sum = 63314101029973742316 := by
  decide +kernel

/-! ## Arithmetic and the mixer (sections 2.1, 2.2) -/

/-- A17, A18, A27, A29, A8. -/
theorem test_words :
    rotr (0x0123456789abcdef : BitVec 64) 63 = 0x02468acf13579bde ∧
    rotr (1 : BitVec 64) 63 = 2 ∧ rotr (0x89abcdef : BitVec 32) 7 = 0xdf13579b ∧
    rotr (0x80000000 : BitVec 32) 7 = 0x01000000 ∧
    (0xffffffff : BitVec 32) + 0xffffffff = 0xfffffffe := by
  decide

/-- The four positions of a mixer call on a vector that is zero elsewhere. -/
def mixed (var : Variant) (a b c d : Fin 16) (s : Fin 4 → BitVec var.wordBits)
    (x y : BitVec var.wordBits) : List (BitVec var.wordBits) :=
  let v := (((Vector.replicate 16 0).set a (s 0)).set b (s 1)).set c (s 2) |>.set d (s 3)
  let v := mixG (rotations var) v a b c d x y
  [v[a], v[b], v[c], v[d]]

/-- G1 at other positions, as section 2.2 gives it. -/
theorem test_mixer_b :
    mixed .B 3 4 9 14 ![1, 2, 3, 4] 5 6 =
      [0x0000010000000c0e, 0x181c021802181806, 0x0c0e000c010c0003, 0x0c0e0000010c0000] := by
  decide

/-- G18. -/
theorem test_mixer_s :
    mixed .S 0 4 8 12 ![0x6a09e667, 0x510e527f, 0x6a09e667, 0x510e527f] 0x00636261 0 =
      [0xe5b1c00f, 0x9d0eb2fd, 0xad6f5a06, 0x7a2c892a] := by
  decide

/-! ## The commands, one step each -/

/-- X33 and X22: `RESET` leaves `FAULT`, and wipes an invocation. -/
theorem test_reset :
    answer 0x01000000 broken = some (0, 0, 0) ∧
    answer 0x01000000 (scene .B 64 2 .key 1 0 [(0, 1)]) = some (0, 0, 0) ∧
    (after 0x01000000 (scene .B 64 2 .key 1 0 [(0, 1)])).buf = [] := by
  decide

/-- I12: `INIT S, 28, 7`. -/
theorem test_init :
    answer 0x0201071c State.reset = some (0, 0, 0x0001) ∧
    (after 0x0201071c State.reset).h[0] = 0x6b08e17b ∧
    (after 0x0201071c State.reset).h[1] = 0xbb67ae85 ∧
    (cfgWord (after 0x0201071c State.reset)).toNat = 0x1071c := by
  decide

/-- X26, X19, X27, I16. -/
theorem test_init_faults :
    answer 0x02010021 doneB = some (1, 0, 0x0014) ∧
    (after 0x02010021 doneB).h = Vector.replicate 8 0 ∧
    answer 0x02000041 (scene .B 64 0 .data 0 0 []) = some (2, 0, 0x0024) ∧
    answer 0x02000040 broken = some (15, 0, 0x0014) ∧
    answer 0x02004140 State.reset = some (1, 0, 0x0014) := by
  decide

/-- P3, step 4: the last of three key bytes. -/
theorem test_keyb :
    answer 0x03000079 (scene .B 64 3 .key 2 0 [(0, 0x6b), (1, 0x65)]) = some (0, 0, 0x8002) ∧
    (after 0x03000079 (scene .B 64 3 .key 2 0 [(0, 0x6b), (1, 0x65)])).buf =
      [(0, 0x6b), (1, 0x65), (2, 0x79)] := by
  decide

/-- X1, X15. -/
theorem test_keyb_sequence :
    answer 0x03000000 State.reset = some (2, 0, 0x0024) ∧
    answer 0x03000003 (scene .B 64 2 .data 128 0 [(0, 1), (1, 2)]) = some (2, 0, 0x0024) := by
  decide

/-- P4, step 129: the 128th byte fills the buffer and compresses nothing. -/
theorem test_datab :
    answer 0x0400007f (scene .B 64 0 .data 127 0 [(1, 1)]) = some (0, 0, 0x8002) ∧
    (after 0x0400007f (scene .B 64 0 .data 127 0 [(1, 1)])).t = 0 ∧
    (after 0x0400007f (scene .B 64 0 .data 127 0 [(1, 1)])).buf = [(1, 1), (127, 0x7f)] := by
  decide

/-- The constructed states at the end of section 2.9: a waiting block at the edge of the counter. -/
theorem test_datab_overflow :
    answer 0x04000000 (scene .S 32 0 .data 64 (2 ^ 64 - 64) []) = some (5, 0, 0x0054) ∧
    (after 0x04000000 (scene .S 32 0 .data 64 (2 ^ 64 - 128) [])).t = 2 ^ 64 - 64 ∧
    (after 0x04000000 (scene .S 32 0 .data 64 (2 ^ 64 - 128) [])).c = 1 := by
  decide +kernel

/-- P1, step 6, the digest aside. -/
theorem test_final :
    answer 0x05000000 (scene .B 64 0 .data 3 0 [(0, 0x61), (1, 0x62), (2, 0x63)]) =
      some (0, 0, 0x0003) ∧
    (after 0x05000000 (scene .B 64 0 .data 3 0 [(0, 0x61), (1, 0x62), (2, 0x63)])).t = 3 ∧
    (after 0x05000000 (scene .B 64 0 .data 3 0 [(0, 0x61), (1, 0x62), (2, 0x63)])).buf = [] := by
  decide

/-- The last constructed state of section 2.9, and X23. -/
theorem test_final_faults :
    answer 0x05000000 (scene .S 32 0 .data 1 (2 ^ 64 - 1) []) = some (5, 0, 0x0054) ∧
    answer 0x05000000 doneB = some (2, 0, 0x0024) := by
  decide

/-- Q3, Q4, Q7, Q26, X16. -/
theorem test_rdreg :
    answer 0x09000007 doneB = some (0, 0x239900d4ed8623b9, 0x0003) ∧
    answer 0x09000008 doneB = some (0, 3, 0x0003) ∧
    answer 0x0900000b doneB = some (0, 3, 0x0003) ∧
    answer 0x0900000a doneS = some (0, 0x10020, 0x0003) ∧
    answer 0x0900000b (scene .B 64 2 .data 128 0 [(0, 1), (1, 2)]) = some (0, 0x8002, 0x8002) := by
  decide

/-- Q20, X28, X29, and R180's two halves of a counter beyond 64 bits. -/
theorem test_rdreg_edges :
    answer 0x0900000c doneB = some (4, 0, 0x0044) ∧ answer 0x0900000b broken = some (0, 0x14, 0x0014) ∧
    answer 0x0900000c broken = some (15, 0, 0x0014) ∧
    answer 0x09000009 (scene .B 64 0 .data 0 (5 * 2 ^ 64 + 128) []) = some (0, 5, 0x0002) := by
  decide

/-- Q11, Q12, Q30, Q31. -/
theorem test_rddig :
    answer 0x0a000007 doneB = some (0, 0x0d, 0x0003) ∧ answer 0x0a000008 doneB = some (0, 0x6a, 0x0003) ∧
    answer 0x0a000004 doneS = some (0, 0x32, 0x0003) ∧
    answer 0x0a00001f doneS = some (0, 0x82, 0x0003) := by
  decide

/-- Q32, X20, P5 step 4. -/
theorem test_rddig_faults :
    answer 0x0a000020 doneS = some (4, 0, 0x0044) ∧
    answer 0x0a0000c8 (scene .B 64 0 .data 0 0 []) = some (2, 0, 0x0024) ∧
    answer 0x0a000000 broken = some (15, 0, 0x0014) := by
  decide

/-- M18 in the middle of an invocation (P7 step 3), X30, Q21. -/
theorem test_rdrom :
    answer 0x0b000110 (scene .B 64 0 .data 1 0 [(0, 0x61)]) = some (0, 0xe, 0x0102) ∧
    answer 0x0b000000 broken = some (15, 0, 0x0014) ∧
    answer 0x0b000018 doneB = some (4, 0, 0x0044) := by
  decide

/-- X5, X21, X31. -/
theorem test_illegal_word :
    answer 0x00000000 State.reset = some (3, 0, 0x0034) ∧
    answer 0x0a010000 (scene .B 64 0 .data 0 0 []) = some (3, 0, 0x0034) ∧
    answer 0xffffffff broken = some (15, 0, 0x0014) := by
  decide

/-- Hardware reset, between commands and in the middle of one (R220): the reset state, no response. -/
theorem test_hardware_reset :
    step { doneB with input := [.hardReset] } = .next State.reset ∧
    step { doneB with input := [.commandCut 0x05000000] } = .next State.reset :=
  ⟨rfl, rfl⟩

/-- What the host's two questions rest on: the word of a row decodes and runs next. -/
theorem test_fetch_word :
    decodeTableWord 32 0x0900000b = some (.rdreg 11) ∧
    step (State.reset.withFetchWord 32 0x0900000b) = execRdreg 11 State.reset :=
  ⟨rfl, rfl⟩

/-! ## Cases that meet the hypotheses of the obligations

Each names the obligation it is for. A clause whose hypotheses another witness of the same obligation
meets is not repeated. -/

theorem witness_InitCommandFollowsItsRule :
    broken.phase = .fault ∧ (scene .B 64 2 .key 0 0 []).phase = .key ∧
    (scene .B 64 0 .data 0 0 []).phase = .data ∧
    -- out of range, in IDLE and DONE, each bound by one
    (State.reset.phase = .idle ∧ (0 < 1 ∧ 64 < 65 ∧ 32 < 33)) ∧ doneB.phase = .done ∧
    -- in range, at both ends
    (1 ≤ 1 ∧ 1 ≤ 64 ∧ 0 ≤ 64) ∧ (1 ≤ 32 ∧ 32 ≤ 32) ∧ (255 < 256) := by
  decide

theorem witness_KeybCommandFollowsItsRule :
    broken.phase = .fault ∧ (doneB.phase ≠ .fault ∧ doneB.phase ≠ .key) ∧
    (let s := scene .B 64 64 .key 0 0 [];
      s.phase = .key ∧ s.c.toNat < 128 ∧ s.c.toNat + 1 ≠ s.kk.toNat) ∧
    (let s := scene .B 64 64 .key 63 0 [];
      s.phase = .key ∧ s.c.toNat < 128 ∧ s.c.toNat + 1 = s.kk.toNat) := by
  decide

theorem witness_DatabCommandFollowsItsRule :
    broken.phase = .fault ∧ (doneB.phase ≠ .fault ∧ doneB.phase ≠ .data) ∧
    (let s := scene .S 32 0 .data 64 (2 ^ 64 - 64) [];
      s.phase = .data ∧ s.c.toNat = s.var.blockBytes ∧
        2 ^ s.var.counterBits ≤ s.t.toNat + s.var.blockBytes) ∧
    (let s := scene .S 32 0 .data 64 (2 ^ 64 - 128) [];
      s.phase = .data ∧ s.c.toNat = s.var.blockBytes ∧
        s.t.toNat + s.var.blockBytes < 2 ^ s.var.counterBits) ∧
    (let s := scene .B 64 0 .data 127 0 [];
      s.phase = .data ∧ s.c.toNat ≠ s.var.blockBytes ∧ s.c.toNat < 128) := by
  decide

theorem witness_FinalCommandFollowsItsRule :
    broken.phase = .fault ∧ (doneB.phase ≠ .fault ∧ doneB.phase ≠ .data) ∧
    (let s := scene .S 32 0 .data 1 (2 ^ 64 - 1) [];
      s.phase = .data ∧ 2 ^ s.var.counterBits ≤ s.t.toNat + s.c.toNat) ∧
    (let s := scene .S 32 0 .data 0 (2 ^ 64 - 1) [];
      s.phase = .data ∧ s.t.toNat + s.c.toNat < 2 ^ s.var.counterBits) := by
  decide

theorem witness_RdregCommandFollowsItsRule :
    255 < 256 ∧ (11 < 12 ∧ broken.phase = .fault) ∧ (11 < 255 ∧ doneB.phase ≠ .fault) := by decide

theorem witness_RddigCommandFollowsItsRule :
    255 < 256 ∧ broken.phase = .fault ∧ (State.reset.phase ≠ .fault ∧ State.reset.phase ≠ .done) ∧
    (doneB.phase = .done ∧ doneB.nn.toNat ≤ 64) ∧
    (doneB.phase = .done ∧ 7 < doneB.var.wordBytes ∧ doneB.var.wordBytes * 7 + 7 < doneB.nn.toNat) ∧
    (doneS.phase = .done ∧ 3 < doneS.var.wordBytes ∧
      doneS.var.wordBytes * 7 + 3 < doneS.nn.toNat) := by
  decide

theorem witness_RdromCommandFollowsItsRule :
    511 < 512 ∧ broken.phase = .fault ∧ doneB.phase ≠ .fault ∧
    ((0x018 ≤ 0x018 ∧ 0x018 ≤ 0x0FF) ∧ (0x018 ≤ 0x0FF ∧ 0x0FF ≤ 0x0FF)) ∧
    ((0x1C0 ≤ 0x1C0 ∧ 0x1C0 ≤ 0x1FF) ∧ (0x1C0 ≤ 0x1FF ∧ 0x1FF ≤ 0x1FF)) := by
  decide

theorem witness_FaultRejectsAllButResetAndRdreg :
    broken.phase = .fault ∧
    decode 0x01000000 = .command .reset ∧
    (decode 0x0900000b = .command (.rdreg 11) ∧ 11 ≤ 11) ∧
    (decode 0x0900000c = .command (.rdreg 12) ∧ 11 < 12) ∧
    (decode 0x05000000 ≠ .command .reset ∧
      ∀ idx, decode 0x05000000 = .command (.rdreg idx) → 11 < idx) := by
  refine ⟨rfl, by decide, by decide, by decide, by decide, fun idx h => ?_⟩
  have h5 : decode 0x05000000 = .command .final := by decide
  exact absurd (h5.symm.trans h) (by simp)

/-- For `SequenceErrorExactlyWhenNotPermitted`, `InvalidParameterExactlyWhenLengthsIllegal`,
`LengthOverflowExactlyWhenCounterIsFull` and `OperandRangeExactlyWhenNothingIsNamed`: the side that says
when, in a phase that is not `FAULT`. -/
theorem witness_ExactlyWhen :
    (State.reset.phase ≠ .fault ∧ State.reset.phase ≠ .key) ∧
    (doneB.phase = .done ∧ 64 < 65) ∧
    (let s := scene .S 32 0 .data 1 (2 ^ 64 - 1) [];
      s.phase = .data ∧ 2 ^ 64 ≤ s.t.toNat + s.c.toNat) ∧
    ((Instr.rddig 64).wf = true ∧ doneB.phase = .done ∧ doneB.nn.toNat ≤ 64) := by
  decide

theorem witness_IllegalCommandExactlyWhenNoRowMatches :
    (let s : State := { State.reset with input := [.command 0x06000000] };
      s.phase ≠ .fault ∧ s.input = .command 0x06000000 :: []) ∧
    (∀ row ∈ opcodeMap, (0x06000000 : CmdWord) &&& row.mask ≠ row.pattern) ∧
    (∀ row ∈ opcodeMap, (0x01000001 : CmdWord) &&& row.mask ≠ row.pattern) := by
  decide

/-- For `EveryFaultEntersTheSameWay`, and for `EveryCommandAnswersOnce` where a fault is raised. -/
theorem witness_EveryFaultEntersTheSameWay :
    ∃ s t : State, s.phase ≠ .fault ∧ s.input = .command 0x06000000 :: [] ∧ step s = .next t ∧
      t.phase = .fault :=
  ⟨{ State.reset with input := [.command 0x06000000] }, _, by decide, rfl, rfl, rfl⟩

theorem witness_FaultIsLeftOnlyByReset :
    ∃ s t : State, s.phase = .fault ∧ step s = .next t ∧ t.phase ≠ .fault :=
  ⟨{ broken with input := [.command 0x01000000] }, _, rfl, rfl, by decide⟩

/-- For `CommandsRaiseExactlyTheirFaults`, one case. -/
theorem witness_CommandsRaiseExactlyTheirFaults :
    ∃ t : State, doneB.phase ≠ .fault ∧ exec (.init .S 33 0) doneB = .next t ∧ t.phase = .fault ∧
      t.err = some .invalidParameter :=
  ⟨_, by decide, rfl, rfl, rfl⟩

theorem witness_NoFaultMeansOkResponse :
    ∃ t : State, doneB.phase ≠ .fault ∧ exec (.rddig 63) doneB = .next t ∧ t.phase ≠ .fault :=
  ⟨_, by decide, rfl, by decide⟩

theorem witness_EveryCommandAnswersOnce :
    ∃ s t : State, s.input = .command 0x0a00003f :: [.hardReset] ∧ step s = .next t :=
  ⟨{ doneB with input := [.command 0x0a00003f, .hardReset] }, _, rfl, rfl⟩

theorem witness_StepRunsTheDeliveredCommand :
    (let s : State := { doneB with input := [.command 0x0a00003f] };
      s.input = .command 0x0a00003f :: [] ∧ decode 0x0a00003f = .command (.rddig 63)) ∧
    doneB.input = [] := by
  decide

theorem witness_HardwareResetGivesResetState :
    ({ doneB with input := [.hardReset] } : State).input = .hardReset :: [] ∧
    ({ doneB with input := [.commandCut 0x05000000] } : State).input = .commandCut 0x05000000 :: [] := by
  decide

/-- For `StopsExactlyWhereStorageEnds`: states no run reaches, and the command stops. -/
theorem witness_StopsExactlyWhereStorageEnds :
    execKeyb 0 (scene .B 64 0 .key 128 0 []) = .fault (.noSuchBufferAddress 128) ∧
    execDatab 0 (scene .S 32 0 .data 128 0 []) = .fault (.noSuchBufferAddress 128) ∧
    execRddig 32 { doneS with nn := 33 } = .fault (.noSuchDigestByte 32) :=
  ⟨rfl, rfl, rfl⟩

/-! ### States that meet the invariant -/

/-- What all states of an invocation in `S` with `nn = 32` share. -/
theorem scene_inv (kk : Nat) (phase : Phase) (c t : Nat) (buf : Memory) (hk : kk ≤ 32) (hc : c ≤ 64)
    (ht : t < 2 ^ 64) (hp : phase = .key ∨ phase = .data ∨ phase = .done)
    (key : phase = .key → c < kk ∧ t = 0)
    (data : phase = .data → 64 ∣ t ∧ (c = 0 → t = 0 ∧ kk = 0))
    (done : phase = .done → c = 0 ∧ buf = []) (hb : Memory.wf buf)
    (pad : ∀ i, c ≤ i → Memory.read buf i = 0) : Inv (scene .S 32 kk phase c t buf) := by
  have ec : (BitVec.ofNat 8 c).toNat = c := by rw [BitVec.toNat_ofNat]; omega
  have ek : (BitVec.ofNat 8 kk).toNat = kk := by rw [BitVec.toNat_ofNat]; omega
  have et : (BitVec.ofNat 128 t).toNat = t := by rw [BitVec.toNat_ofNat]; omega
  have hnf : phase ≠ .fault := by rcases hp with h | h | h <;> simp [h]
  have hni : phase ≠ .idle := by rcases hp with h | h | h <;> simp [h]
  refine ⟨by simp [scene, State.reset, hnf], fun h => absurd h hni, fun h => absurd h hnf,
    fun _ => ⟨show 1 ≤ (32 : Nat) by decide, show 32 ≤ (32 : Nat) by decide, ?_⟩, fun h => ⟨?_, ?_, ?_⟩, fun h => ⟨?_, ?_⟩,
    fun h h0 => ⟨?_, ?_, ?_⟩, fun h => ⟨?_, (done h).2⟩, fun i hi => pad i ?_,
    fun _ => ⟨?_, ?_, ?_⟩, ?_, hb, rfl, ⟨rfl, rfl⟩⟩
  · exact ek.trans_le hk
  · exact (ec.trans_lt (key h).1).trans_eq ek.symm
  · simp [scene, (key h).2]
  · show store8 .S (initHash .S 32 kk) = store8 .S (initHash .S 32 (BitVec.ofNat 8 kk).toNat)
    rw [ek]
  · exact ec.trans_le hc
  · exact et.symm ▸ (data h).1
  · have : c = 0 := ec.symm.trans (congrArg BitVec.toNat h0)
    simp [scene, ((data h).2 this).1]
  · have : c = 0 := ec.symm.trans (congrArg BitVec.toNat h0)
    simp [scene, ((data h).2 this).2]
  · have : c = 0 := ec.symm.trans (congrArg BitVec.toNat h0)
    simp [scene, ((data h).2 this).2]
  · simp [scene, (done h).1]
  · exact ec.symm.trans_le hi
  · intro i
    exact store8_get_toNat_lt .S (initHash .S 32 kk) i
  · exact et.trans_lt ht
  · exact ec.trans_le hc
  · exact et.trans_lt ht

/-- In `KEY`, before the last key byte. -/
theorem witness_inv_key : Inv (scene .S 32 1 .key 0 0 []) :=
  scene_inv 1 .key 0 0 [] (by decide) (by decide) (by decide) (by decide) (by decide) (by decide)
    (by decide) (by decide) (by simp)

/-- In `DATA` with one byte in the buffer. -/
theorem witness_inv_data : Inv (scene .S 32 0 .data 1 64 [(0, 0x61)]) :=
  scene_inv 0 .data 1 64 _ (by decide) (by decide) (by decide) (by decide) (by decide) (by decide)
    (by decide) (by decide) (fun i hi => read_below_one hi)
where
  read_below_one {i : Nat} (hi : 1 ≤ i) : Memory.read [(0, 0x61)] i = 0 := by
    have : ¬ 0 = i := by omega
    simp only [Memory.read, if_neg this]
    rfl

/-- In `DATA` with a full block of zeros waiting. -/
theorem witness_inv_full : Inv (scene .S 32 0 .data 64 64 []) :=
  scene_inv 0 .data 64 64 [] (by decide) (by decide) (by decide) (by decide) (by decide) (by decide)
    (by decide) (by decide) (by simp)

/-- In `DONE`, with two different histories. -/
theorem witness_inv_done : Inv (scene .S 32 0 .done 0 3 []) ∧ Inv (scene .S 32 5 .done 0 67 []) :=
  ⟨scene_inv 0 .done 0 3 [] (by decide) (by decide) (by decide) (by decide) (by decide) (by decide)
    (by decide) (by decide) (by simp),
   scene_inv 5 .done 0 67 [] (by decide) (by decide) (by decide) (by decide) (by decide) (by decide)
    (by decide) (by decide) (by simp)⟩

/-- In `FAULT`; also for the clause of `RdregCommandFollowsItsRule` on `FAULT`. -/
theorem witness_inv_fault :
    Inv broken ∧ broken.phase = .fault ∧ broken.err = some .invalidParameter ∧ 10 ≤ 10 :=
  ⟨⟨by simp [broken], (fun h => by cases h), fun _ => ⟨rfl, rfl, rfl, rfl, rfl, rfl, rfl⟩,
    (fun h => by rcases h with h | h | h <;> cases h), (fun h => by cases h), (fun h => by cases h),
    (fun h => by cases h), (fun h => by cases h), fun _ _ => rfl, (fun h => by cases h), by decide,
    by decide, rfl, ⟨rfl, rfl⟩⟩, rfl, rfl, by decide⟩

/-- For `StepKeepsInvariant` and `StepNeverStopsUnderInvariant`: a state with a compression to run. -/
theorem witness_StepKeepsInvariant :
    ∃ s t : State, Inv s ∧ step s = .next t ∧ t.phase = .data := by
  have h := witness_inv_full
  refine ⟨{ scene .S 32 0 .data 64 64 [] with input := [.command 0x04000000] }, _, ?_, rfl, rfl⟩
  exact ⟨h.1, (fun e => by cases e), (fun e => by cases e), h.4, h.5, h.6, h.7, h.8, h.9, h.10, h.11,
    h.12, h.13, h.14⟩

/-- For `AbsorbedCountIsTPlusC`: a case for each of its clauses. -/
theorem witness_AbsorbedCountIsTPlusC :
    (∃ s t : State, Inv s ∧ exec (.init .B 64 0) s = .next t ∧ t.phase = .data) ∧
    (∃ s t : State, Inv s ∧ exec (.keyb 0) s = .next t ∧ t.phase = .data) ∧
    (∃ s t : State, Inv s ∧ exec (.datab 0) s = .next t ∧ t.phase = .data) ∧
    (∃ s t : State, Inv s ∧ exec .final s = .next t ∧ t.phase = .done) :=
  ⟨⟨_, _, witness_inv_done.1, rfl, rfl⟩, ⟨_, _, witness_inv_key, rfl, rfl⟩,
    ⟨_, _, witness_inv_full, rfl, rfl⟩, ⟨_, _, witness_inv_data, rfl, rfl⟩⟩

theorem witness_InitForgetsThePast :
    ∃ s₁ s₂ t : State, s₁ ≠ s₂ ∧ Inv s₁ ∧ Inv s₂ ∧ s₁.input = s₂.input ∧
      exec (.init .B 1 64) s₁ = .next t ∧ t.phase = .key ∧ s₂.phase = .done :=
  ⟨_, _, _, by decide, witness_inv_done.1, witness_inv_done.2, rfl, rfl, rfl, rfl⟩

/-! ### Whole-machine rules -/

theorem witness_PhaseFollowsTransitionTable :
    ∃ t, exec (.keyb 0) (scene .S 32 1 .key 0 0 []) = .next t := ⟨_, rfl⟩

theorem witness_PermissionTableDecides :
    permission (.rdreg 12) broken.phase = .rejected ∧
    permission .final doneB.phase = .sequence ∧
    permission (.rdreg 11) broken.phase = .allowed ∧
    (∃ t, exec (.rdreg 11) broken = .next t) :=
  ⟨rfl, rfl, rfl, _, rfl⟩

theorem witness_CounterMovesOnlyBeforeCompression :
    (∃ s t : State, exec (.datab 0) s = .next t ∧ t.t ≠ s.t) ∧
    (∃ s t : State, exec .final s = .next t ∧ t.t ≠ s.t) ∧
    (∃ t : State, exec (.init .B 1 0) doneB = .next t ∧ t.t ≠ doneB.t) :=
  ⟨⟨scene .S 32 0 .data 64 64 [], _, rfl, by decide⟩,
    ⟨scene .S 32 0 .data 1 64 [(0, 0x61)], _, rfl, by decide⟩, ⟨_, rfl, by decide⟩⟩

theorem witness_DigestStaysUntilInitResetOrFault :
    ∃ t : State, doneB.phase = .done ∧ exec (.rddig 64) doneB = .next t ∧ t.h ≠ doneB.h :=
  ⟨_, rfl, rfl, by decide⟩

/-- For `ReadsDoNotReachTheBuffer` too. -/
theorem witness_ReadsHaveNoSideEffect :
    ∃ t : State, exec (.rdrom 0) doneB = .next t ∧ t.phase = doneB.phase := ⟨_, rfl, rfl⟩

/-- For `BufferBytesFrame`: a case for each clause. -/
theorem witness_BufferBytesFrame :
    (∃ t : State, Memory.wf (scene .S 32 1 .key 0 0 []).buf ∧
      exec (.keyb 7) (scene .S 32 1 .key 0 0 []) = .next t ∧ t.phase = .data) ∧
    (∃ t : State, exec (.datab 7) (scene .B 64 0 .data 127 0 [(0, 0x61)]) = .next t ∧
      t.phase = .data ∧ 127 ≠ Variant.B.blockBytes) ∧
    (∃ t : State, exec (.datab 7) (scene .S 32 0 .data 64 0 [(0, 0x61)]) = .next t ∧
      t.phase = .data ∧ 64 = Variant.S.blockBytes) ∧
    (∃ t : State, exec (.rdreg 0) (scene .B 64 0 .data 127 0 [(0, 0x61)]) = .next t ∧
      t.phase = .data) ∧
    (∃ t : State, exec .final (scene .S 32 0 .data 64 0 [(0, 0x61)]) = .next t ∧
      Phase.data ≠ .fault) ∧
    (∃ t : State, exec (.rdreg 12) (scene .S 32 0 .data 64 0 [(0, 0x61)]) = .next t ∧
      t.phase = .fault) :=
  ⟨⟨_, by decide, rfl, rfl⟩, ⟨_, rfl, rfl, by decide⟩, ⟨_, rfl, rfl, rfl⟩, ⟨_, rfl, rfl⟩,
    ⟨_, rfl, by decide⟩, ⟨_, rfl, rfl⟩⟩

theorem witness_InstancesDoNotTouchEachOther :
    ∃ sys' : System, systemStep 0 ⟨[{ doneB with input := [.hardReset] }, doneS]⟩ =
      some (.next sys') ∧ 1 ≠ 0 := ⟨_, rfl, by decide⟩

/-! ### Encoding, mixer, Compressor -/

theorem witness_DecodeOfEncodeIsTheCommand :
    (Instr.init .S 255 255).wf = true ∧ (Instr.rdrom 511).wf = true := by decide

theorem witness_EncodeOfDecodeIsTheWord : decode 0x0201ffff = .command (.init .S 255 255) := by decide

theorem witness_RotationMovesBits : 0 < 63 ∧ 63 < 64 ∧ (0 < 64 ∧ 63 < 64) := by decide

/-- Two vectors that agree at the four positions and nowhere else. -/
theorem witness_MixerReadsAndWritesItsFourWords :
    (1 : Fin 16) ≠ 0 ∧ (1 : Fin 16) ≠ 4 ∧ (1 : Fin 16) ≠ 8 ∧ (1 : Fin 16) ≠ 12 ∧
    (let u : Vector (BitVec 32) 16 := Vector.replicate 16 0
      let v := u.set 1 5
      u[0] = v[0] ∧ u[4] = v[4] ∧ u[8] = v[8] ∧ u[12] = v[12] ∧ u ≠ v) := by
  decide

theorem witness_MixerIsInjective :
    ([3, 4, 9, 14] : List (Fin 16)).Nodup ∧
    ∀ v : Vector (BitVec 64) 16,
      mixG (rotations .B) v 3 4 9 14 5 6 = mixG (rotations .B) v 3 4 9 14 5 6 :=
  ⟨by decide, fun _ => rfl⟩

theorem witness_CallsOfHalfRoundCommute :
    ([3, 1, 0, 2] : List (Fin 8)).Perm [0, 1, 2, 3] ∧ ([7, 4, 6, 5] : List (Fin 8)).Perm [4, 5, 6, 7] := by
  decide

/-- The largest counter of each variant, two counters with equal words, and the words of R140's case. -/
theorem witness_CounterAndFlagReachTheirWordsOnly :
    2 ^ 128 - 1 < 2 ^ Variant.B.counterBits ∧ 2 ^ 64 - 1 < 2 ^ Variant.S.counterBits ∧
    (let v := startVector .S (iv .S) (2 ^ 64 - 1);
      (v true)[12] = (v false)[12] ∧ (v true)[13] = (v false)[13]) ∧
    (15 : Fin 16) ≠ 12 ∧ (15 : Fin 16) ≠ 13 ∧ (15 : Fin 16) ≠ 14 := by
  decide +kernel

/-- "In variant `S`, a `t` of `2^32` gives low half 0 and high half 1" (R140), in the words of R133. -/
theorem test_counter_halves :
    (startVector .S (iv .S) (2 ^ 32) true)[12] = 0x510e527f ∧
    (startVector .S (iv .S) (2 ^ 32) true)[13] = 0x9b05688c ^^^ 1 := by
  decide +kernel

theorem witness_SequencerMakesTheCallsInOrder :
    (startSequencer true doneB).r = 0 ∧ (startSequencer true doneB).g = 0 ∧
    (11 : Fin 12).val < Variant.B.rounds ∧ (9 : Fin 12).val < Variant.S.rounds := by
  decide

/-- The last call of each variant, a compression, and a state that stops. -/
theorem witness_SequencerCountersAreHiddenAndZero :
    95 < 8 * Variant.B.rounds ∧ 79 < 8 * Variant.S.rounds ∧
    (∃ s t : State, s.r = 0 ∧ s.g = 0 ∧ step s = .next t ∧ t.phase = .done) ∧
    execKeyb 0 (scene .B 64 0 .key 128 0 []) = .fault (.noSuchBufferAddress 128) :=
  ⟨by decide, by decide,
    ⟨{ scene .S 32 0 .data 64 0 [] with input := [.command 0x05000000] }, _, rfl, rfl, rfl, rfl⟩, rfl⟩

/-- In B the calls are `(0, 0)` to `(11, 7)` (R135), and then the counters are 0 (log 18); in S round 9 is
the last. -/
theorem test_counters_wrap :
    let last : Sequencer := { startSequencer true doneB with r := 11, g := 7 }
    (tick .B last).r = 0 ∧ (tick .B last).g = 0 ∧
    (tick .B { last with r := 9 }).r = 10 ∧ (tick .S { last with r := 9 }).r = 0 := by
  decide

/-! ### Whole invocations -/

theorem witness_HashHasRequestedLength :
    legalLengths .B 64 64 = true ∧ legalLengths .S 1 32 = true ∧ legalLengths .B 0 0 = false ∧
    legalLengths .S 33 0 = false ∧ legalLengths .B 64 65 = false := by
  decide

/-- The expansions of R81 with the words of R72; a key of 256 bytes has none (R81). -/
theorem test_assemble :
    assemble (hashCommands .B 2 [0x6b] [0x61]) =
      some [0x02000102, 0x0300006b, 0x04000061, 0x05000000, 0x0a000000, 0x0a000001] ∧
    assemble (hashCommands .B 64 (List.replicate 256 0) []) = none := by
  decide +kernel

theorem witness_HashIsExpressibleExactlyWhenLengthsFit :
    256 ≤ 256 ∧ 256 < 257 ∧ (255 < 256 ∧ (List.replicate 255 (0 : Byte)).length < 256) ∧
    256 ≤ (List.replicate 256 (0 : Byte)).length := by
  decide +kernel

theorem witness_HashCommandsComputeHash :
    (State.reset.phase = .idle ∧ doneB.phase = .done) ∧ legalLengths .B 64 [0x6b, 0x65, 0x79].length ∧
    (absorbedStream .B [0x6b, 0x65, 0x79] [0x61, 0x62, 0x63]).length < 2 ^ Variant.B.counterBits := by
  decide +kernel

theorem witness_InvalidHashIsRejectedThroughout :
    State.reset.phase = .idle ∧ 33 < 256 ∧ ([] : List Byte).length < 256 ∧
    legalLengths .S 33 ([] : List Byte).length = false := by
  decide

theorem witness_InitWordCarriesParameterWord : 255 < 256 ∧ 0 < 256 := by decide

/-! ## The Compressor (section 2.6) -/

/-- F4, the first block of P4: 12 rounds, a counter and no final flag. -/
theorem test_compress_b :
    compressF .B (initHash .B 64 0) ((List.range 128).map (BitVec.ofNat 8)) 128 false =
      #v[0xffa0852a267eb85a, 0xee3e4a8743c6c30b, 0x28a559f71459300a, 0x61b0eeaf429e7346,
        0x2f194672bced790f, 0xbef760bb734a4a5d, 0x37410e514215c327, 0xe96b7e8825d0f5a7] := by
  decide +kernel

/-- F15: 10 rounds, both counter words and the final flag. -/
theorem test_compress_s :
    compressF .S (Vector.replicate 8 0xffffffff) (List.replicate 64 0xff) 18446744073709551615 true =
      #v[0x3570b638, 0x8125b93a, 0xa68c3ecd, 0x88ad94d0, 0x7fe13e84, 0x01f184e0, 0x41a5f0df,
        0x1a4da8cb] := by
  decide +kernel

end Sys2Proof.Tests
end

section
/-! SUPPORT. The inversion of `exec` and of `step`: every state either can answer, said once. -/

namespace Sys2Proof.Machine

/-- `INIT` is permitted in no state that is in `FAULT` (R151). -/
theorem notFault_of_idle_or_done {s : State} (h : s.phase = .idle ∨ s.phase = .done) :
    s.phase ≠ .fault := by
  rcases h with h | h <;> simp [h]

/-- Every state a command can answer: the word is rejected, a fault is taken, or the command has the
effect its rule gives (R198, R199, and the rule of each command). -/
inductive CommandOutcome (s : State) : Instr → State → Prop
  | rejected {i : Instr} (ne : i ≠ .reset) (inFault : s.phase = .fault) :
      CommandOutcome s i (reject s)
  | faulted {i : Instr} (ne : i ≠ .reset) (notFault : s.phase ≠ .fault) (f : EngineFault) :
      CommandOutcome s i (raiseFault f s)
  | reset : CommandOutcome s .reset (resetEngine s)
  | init {var : Variant} {nn kk : Nat} (permitted : s.phase = .idle ∨ s.phase = .done)
      (legal : legalLengths var nn kk = true) :
      CommandOutcome s (.init var nn kk) (respond rcOk 0 (beginInvocation var nn kk s))
  | keyb {byte : Byte} {s' : State} (permitted : s.phase = .key) (stored : absorb byte s = some s') :
      CommandOutcome s (.keyb byte) (respond rcOk 0 (closeKeyBlock s'))
  | datab {byte : Byte} {s' : State} (permitted : s.phase = .data)
      (notFull : s.c.toNat ≠ s.var.blockBytes) (stored : absorb byte s = some s') :
      CommandOutcome s (.datab byte) (respond rcOk 0 s')
  | databFull {byte : Byte} {s' : State} (permitted : s.phase = .data)
      (full : s.c.toNat = s.var.blockBytes)
      (fits : counterWouldOverflow s.var.blockBytes s = false)
      (stored : absorb byte (compressEvent false s.var.blockBytes s) = some s') :
      CommandOutcome s (.datab byte) (respond rcOk 0 s')
  | final (permitted : s.phase = .data) (fits : counterWouldOverflow s.c.toNat s = false) :
      CommandOutcome s .final (respond rcOk 0 { compressEvent true s.c.toNat s with phase := .done })
  | read {i : Instr}
      (isRead : (∃ idx, i = .rdreg idx) ∨ (∃ idx, i = .rddig idx) ∨ (∃ addr, i = .rdrom addr))
      (value : Word) : CommandOutcome s i (respond rcOk value s)

/-- The phase check of a command other than `RESET`: what is left is the permitted case. -/
theorem CommandOutcome.of_permittedIn {i : Instr} {ps : List Phase} {s t : State} {k : Result}
    (ne : i ≠ .reset) (h : permittedIn ps s k = .next t)
    (permitted : s.phase ∈ ps → s.phase ≠ .fault → k = .next t → CommandOutcome s i t) :
    CommandOutcome s i t := by
  obtain ⟨hf, rfl⟩ | ⟨hf, -, rfl⟩ | ⟨hf, hp, hk⟩ := permittedIn_next h
  · exact .rejected ne hf
  · exact .faulted ne hf _
  · exact permitted hp hf hk

/-- The check for `FAULT` alone. -/
theorem CommandOutcome.of_unlessFaulted {i : Instr} {s t : State} {k : Result}
    (ne : i ≠ .reset) (h : unlessFaulted s k = .next t)
    (permitted : s.phase ≠ .fault → k = .next t → CommandOutcome s i t) :
    CommandOutcome s i t := by
  obtain ⟨hf, rfl⟩ | ⟨hf, hk⟩ := unlessFaulted_next h
  · exact .rejected ne hf
  · exact permitted hf hk

theorem execInit_outcome {var : Variant} {nn kk : Nat} {s t : State}
    (h : execInit var nn kk s = .next t) : CommandOutcome s (.init var nn kk) t := by
  refine .of_permittedIn (by simp) h fun hp hf hk => ?_
  split at hk <;> cases hk
  next legal => exact .init (by simpa using hp) legal
  next => exact .faulted (by simp) hf _

theorem execKeyb_outcome {byte : Byte} {s t : State} (h : execKeyb byte s = .next t) :
    CommandOutcome s (.keyb byte) t := by
  refine .of_permittedIn (by simp) h fun hp _ hk => ?_
  split at hk <;> cases hk
  next stored => exact .keyb (by simpa using hp) stored

/-- The end of `DATAB` answers when the byte finds room. -/
theorem absorbData_next {byte : Byte} {s t : State} (h : absorbData byte s = .next t) :
    ∃ s', absorb byte s = some s' ∧ t = respond rcOk 0 s' := by
  unfold absorbData at h
  split at h <;> cases h
  next stored => exact ⟨_, stored, rfl⟩

theorem execDatab_outcome {byte : Byte} {s t : State} (h : execDatab byte s = .next t) :
    CommandOutcome s (.datab byte) t := by
  refine .of_permittedIn (by simp) h fun hp hf hk => ?_
  have permitted : s.phase = .data := by simpa using hp
  split_ifs at hk with full overflows
  · cases hk
    exact .faulted (by simp) hf _
  · obtain ⟨s', stored, rfl⟩ := absorbData_next hk
    exact .databFull permitted full (by simpa using overflows) stored
  · obtain ⟨s', stored, rfl⟩ := absorbData_next hk
    exact .datab permitted full stored

theorem execFinal_outcome {s t : State} (h : execFinal s = .next t) : CommandOutcome s .final t := by
  refine .of_permittedIn (by simp) h fun hp hf hk => ?_
  split_ifs at hk with overflows <;> cases hk
  · exact .faulted (by simp) hf _
  · exact .final (by simpa using hp) (by simpa using overflows)

theorem execRdreg_outcome {idx : Nat} {s t : State} (h : execRdreg idx s = .next t) :
    CommandOutcome s (.rdreg idx) t := by
  unfold execRdreg at h
  split at h
  · cases h
    exact .read (.inl ⟨idx, rfl⟩) _
  · refine .of_unlessFaulted (by simp) h fun hf hk => ?_
    cases hk
    exact .faulted (by simp) hf _

theorem execRddig_outcome {idx : Nat} {s t : State} (h : execRddig idx s = .next t) :
    CommandOutcome s (.rddig idx) t := by
  refine .of_permittedIn (by simp) h fun _ hf hk => ?_
  split_ifs at hk
  · cases hk
    exact .faulted (by simp) hf _
  · split at hk <;> cases hk
    exact .read (.inr (.inl ⟨idx, rfl⟩)) _

theorem execRdrom_outcome {addr : Nat} {s t : State} (h : execRdrom addr s = .next t) :
    CommandOutcome s (.rdrom addr) t := by
  refine .of_unlessFaulted (by simp) h fun hf hk => ?_
  split at hk <;> cases hk
  · exact .read (.inr (.inr ⟨addr, rfl⟩)) _
  · exact .faulted (by simp) hf _

/-- A command that answers has one of the outcomes listed. -/
theorem exec_outcome {i : Instr} {s t : State} (h : exec i s = .next t) : CommandOutcome s i t := by
  cases i with
  | reset =>
    cases h
    exact .reset
  | init var nn kk => exact execInit_outcome h
  | keyb byte => exact execKeyb_outcome h
  | datab byte => exact execDatab_outcome h
  | final => exact execFinal_outcome h
  | rdreg idx => exact execRdreg_outcome h
  | rddig idx => exact execRddig_outcome h
  | rdrom addr => exact execRdrom_outcome h

/-! What a command did when it did not end in `FAULT`: neither rejected nor faulted. -/

section
variable {s t : State}

theorem CommandOutcome.init_runs {var : Variant} {nn kk : Nat}
    (o : CommandOutcome s (.init var nn kk) t) (ht : t.phase ≠ .fault) :
    (s.phase = .idle ∨ s.phase = .done) ∧ legalLengths var nn kk = true ∧
      t = respond rcOk 0 (beginInvocation var nn kk s) := by
  cases o with
  | rejected _ inFault => exact absurd inFault ht
  | faulted => exact absurd rfl ht
  | init permitted legal => exact ⟨permitted, legal, rfl⟩
  | read isRead => simp at isRead

theorem CommandOutcome.keyb_runs {byte : Byte} (o : CommandOutcome s (.keyb byte) t)
    (ht : t.phase ≠ .fault) :
    s.phase = .key ∧ ∃ s', absorb byte s = some s' ∧ t = respond rcOk 0 (closeKeyBlock s') := by
  cases o with
  | rejected _ inFault => exact absurd inFault ht
  | faulted => exact absurd rfl ht
  | keyb permitted stored => exact ⟨permitted, _, stored, rfl⟩
  | read isRead => simp at isRead

/-- A `DATAB` stores into the block as it is, or compresses a full one first (R164, R165). -/
theorem CommandOutcome.datab_runs {byte : Byte} (o : CommandOutcome s (.datab byte) t)
    (ht : t.phase ≠ .fault) :
    ∃ s', t = respond rcOk 0 s' ∧
      ((s.c.toNat ≠ s.var.blockBytes ∧ absorb byte s = some s') ∨
        (s.c.toNat = s.var.blockBytes ∧ counterWouldOverflow s.var.blockBytes s = false ∧
          absorb byte (compressEvent false s.var.blockBytes s) = some s')) := by
  cases o with
  | rejected _ inFault => exact absurd inFault ht
  | faulted => exact absurd rfl ht
  | datab _ notFull stored => exact ⟨_, rfl, .inl ⟨notFull, stored⟩⟩
  | databFull _ full fits stored => exact ⟨_, rfl, .inr ⟨full, fits, stored⟩⟩
  | read isRead => simp at isRead

theorem CommandOutcome.final_runs (o : CommandOutcome s .final t) (ht : t.phase ≠ .fault) :
    counterWouldOverflow s.c.toNat s = false ∧
      t = respond rcOk 0 { compressEvent true s.c.toNat s with phase := .done } := by
  cases o with
  | rejected _ inFault => exact absurd inFault ht
  | faulted => exact absurd rfl ht
  | final _ fits => exact ⟨fits, rfl⟩
  | read isRead => simp at isRead

end

/-- Every state a step can answer: nothing waited, a hardware reset, a word that is no command, or a
command's own answer (R75, R84, R220). -/
theorem step_outcome {s t : State} (h : step s = .next t) :
    t = s ∨ (∃ rest, t = hardwareReset { s with input := rest }) ∨
    (∃ rest, t = illegalWord { s with input := rest }) ∨
    (∃ i rest, exec i { s with input := rest } = .next t) := by
  unfold step at h
  obtain ⟨-, hd⟩ | ⟨-, rest, -, -, hd⟩ | ⟨-, rest, -, ⟨-, -, hd⟩ | ⟨i, -, hd⟩⟩ := deliver_cases s <;>
    rw [hd] at h
  · cases h
    exact .inl rfl
  · cases h
    exact .inr (.inl ⟨rest, rfl⟩)
  · cases h
    exact .inr (.inr (.inl ⟨rest, rfl⟩))
  · exact .inr (.inr (.inr ⟨i, rest, h⟩))

/-- An undecodable word is rejected or takes `IllegalCommand` (R193, R198). -/
theorem illegalWord_cases (s : State) :
    (s.phase = .fault ∧ illegalWord s = reject s) ∨
    (s.phase ≠ .fault ∧ illegalWord s = raiseFault .illegalCommand s) := by
  by_cases hf : s.phase = .fault <;> simp [illegalWord, hf]

end Sys2Proof.Machine
end

section
/-! SUPPORT. The invariant of R41: what it does not speak of, the states it holds in, and that every
command and every step keeps it. -/

namespace Sys2Proof.Machine

/-! ## States outside an invocation -/

theorem allZero_hardwareReset (s : State) : AllZero (hardwareReset s) :=
  ⟨rfl, rfl, rfl, rfl, rfl, rfl, rfl⟩

theorem allZero_resetEngine (s : State) : AllZero (resetEngine s) :=
  ⟨rfl, rfl, rfl, rfl, rfl, rfl, rfl⟩

theorem allZero_raiseFault (f : EngineFault) (s : State) : AllZero (raiseFault f s) :=
  ⟨rfl, rfl, rfl, rfl, rfl, rfl, rfl⟩

/-- In `IDLE` and `FAULT` the zero registers are the whole invariant (R41 items 1 to 3). -/
theorem AllZero.inv {s : State} (zero : AllZero s) (phase : s.phase = .idle ∨ s.phase = .fault)
    (err : s.err ≠ none ↔ s.phase = .fault) (noWork : s.work = none)
    (countersZero : s.r = 0 ∧ s.g = 0) : Inv s where
  errOnlyInFault := err
  idle _ := zero
  fault _ := zero
  lengths hp := by rcases phase with h | h <;> simp [h] at hp
  key hp := by rcases phase with h | h <;> simp [h] at hp
  data hp := by rcases phase with h | h <;> simp [h] at hp
  nothingAbsorbed hp := by rcases phase with h | h <;> simp [h] at hp
  done hp := by rcases phase with h | h <;> simp [h] at hp
  padding i _ := by rw [zero.buf, read_nil]
  narrow hS := by simp [zero.var] at hS
  counter := by simp [zero.t]
  bufWf := by rw [zero.buf]; exact wf_nil
  noWork := noWork
  countersZero := countersZero

theorem inv_hardwareReset (s : State) : Inv (hardwareReset s) :=
  (allZero_hardwareReset s).inv (.inl rfl) (by simp) rfl ⟨rfl, rfl⟩

theorem inv_resetEngine (s : State) : Inv (resetEngine s) :=
  (allZero_resetEngine s).inv (.inl rfl) (by simp) rfl ⟨rfl, rfl⟩

theorem Inv.after_raiseFault {s : State} (h : Inv s) (f : EngineFault) : Inv (raiseFault f s) :=
  (allZero_raiseFault f s).inv (.inr rfl) (by simp) h.noWork h.countersZero

theorem AllZero.withHost {s : State} (zero : AllZero s) (events : List HostEvent)
    (resp : Option Response) : AllZero { s with input := events, response := resp } := by
  obtain ⟨h, t, var, kk, nn, buf, c⟩ := zero
  exact ⟨h, t, var, kk, nn, buf, c⟩

/-- The invariant does not speak of the host's side, `input` and `response` (R42). -/
theorem Inv.withHost {s : State} (h : Inv s) (events : List HostEvent) (resp : Option Response) :
    Inv { s with input := events, response := resp } where
  errOnlyInFault := h.errOnlyInFault
  idle hp := (h.idle hp).withHost events resp
  fault hp := (h.fault hp).withHost events resp
  lengths := h.lengths
  key := h.key
  data := h.data
  nothingAbsorbed := h.nothingAbsorbed
  done := h.done
  padding := h.padding
  narrow := h.narrow
  counter := h.counter
  bufWf := h.bufWf
  noWork := h.noWork
  countersZero := h.countersZero

theorem Inv.withInput {s : State} (h : Inv s) (events : List HostEvent) :
    Inv { s with input := events } := h.withHost events s.response

theorem Inv.after_respond {s : State} (h : Inv s) (rc : BitVec 4) (value : Word) :
    Inv (respond rc value s) := h.withHost s.input (some ⟨rc, value⟩)

theorem Inv.after_reject {s : State} (h : Inv s) : Inv (reject s) := h.after_respond rcRejected 0

/-- `ERR` is 0 outside `FAULT` (R41 item 1). -/
theorem Inv.err_eq_none {s : State} (h : Inv s) (hf : s.phase ≠ .fault) : s.err = none :=
  not_not.1 (mt h.errOnlyInFault.1 hf)

/-! ## States of an invocation -/

/-- The items of R41 that hold all through an invocation, whatever its phase. Unlike `Inv` they hold in
the middle of `DATAB` too, between the compression and the store of the byte. -/
structure Running (s : State) : Prop where
  err : s.err = none
  lengths : 1 ≤ s.nn.toNat ∧ s.nn.toNat ≤ s.var.nnMax ∧ s.kk.toNat ≤ s.var.kkMax
  inBlock : s.c.toNat ≤ s.var.blockBytes
  padding : ∀ i, s.c.toNat ≤ i → Memory.read s.buf i = 0
  narrow : s.var = .S → ∀ i : Fin 8, s.h[i].toNat < 2 ^ 32
  counter : s.t.toNat < 2 ^ s.var.counterBits
  bufWf : Memory.wf s.buf
  noWork : s.work = none
  countersZero : s.r = 0 ∧ s.g = 0

theorem Inv.running {s : State} (h : Inv s)
    (hp : s.phase = .key ∨ s.phase = .data ∨ s.phase = .done) : Running s where
  err := h.err_eq_none (by rcases hp with hp | hp | hp <;> simp [hp])
  lengths := h.lengths hp
  inBlock := by
    obtain ⟨-, -, hkk⟩ := h.lengths hp
    rcases hp with key | data | done
    · obtain ⟨hc, -, -⟩ := h.key key
      have := kkMax_lt_blockBytes s.var
      omega
    · exact (h.data data).1
    · simp [(h.done done).1]
  padding := h.padding
  narrow hS := (h.narrow hS).1
  counter := h.counter
  bufWf := h.bufWf
  noWork := h.noWork
  countersZero := h.countersZero

/-- In an invocation the items of the phase complete the invariant. -/
theorem Running.inv {s : State} (h : Running s)
    (hp : s.phase = .key ∨ s.phase = .data ∨ s.phase = .done)
    (key : s.phase = .key →
      s.c.toNat < s.kk.toNat ∧ s.t = 0 ∧ s.h = store8 s.var (initHash s.var s.nn.toNat s.kk.toNat))
    (data : s.phase = .data → s.var.blockBytes ∣ s.t.toNat)
    (nothingAbsorbed : s.phase = .data → s.c = 0 →
      s.t = 0 ∧ s.kk = 0 ∧ s.h = store8 s.var (initHash s.var s.nn.toNat 0))
    (done : s.phase = .done → s.c = 0 ∧ s.buf = []) : Inv s where
  errOnlyInFault := by rcases hp with p | p | p <;> simp [p, h.err]
  idle hi := by simp [hi] at hp
  fault hf := by simp [hf] at hp
  lengths _ := h.lengths
  key := key
  data hd := ⟨h.inBlock, data hd⟩
  nothingAbsorbed := nothingAbsorbed
  done := done
  padding := h.padding
  narrow hS := by
    have ht := h.counter
    have hc := h.inBlock
    rw [hS] at ht hc
    exact ⟨h.narrow hS, ht, hc⟩
  counter := h.counter
  bufWf := h.bufWf
  noWork := h.noWork
  countersZero := h.countersZero

/-! ### Absorbing a byte -/

/-- The zero padding above `C` moves up with `C` (R41 item 9). -/
theorem padding_write {m : Memory} {c : Nat} (h : ∀ i, c ≤ i → Memory.read m i = 0) (b : Byte)
    {i : Nat} (hi : c + 1 ≤ i) : Memory.read (Memory.write m c b) i = 0 := by
  rw [read_write_other m b (by omega)]
  exact h i (by omega)

/-- A byte absorbed into a block with room keeps the items of the invocation. -/
theorem Running.after_absorb {s s' : State} {byte : Byte} (h : Running s)
    (room : s.c.toNat < s.var.blockBytes) (stored : absorb byte s = some s') : Running s' := by
  obtain ⟨hc, rfl⟩ := absorb_some stored
  have hc1 := c_succ_toNat hc
  exact
    { err := h.err
      lengths := h.lengths
      inBlock := by simp only [hc1]; omega
      padding := fun i hi => padding_write h.padding byte (by simp only [hc1] at hi; omega)
      narrow := h.narrow
      counter := h.counter
      bufWf := write_wf h.bufWf hc byte
      noWork := h.noWork
      countersZero := h.countersZero }

/-- An absorbed data byte leaves the whole invariant: `C` is not 0 any more. -/
theorem Running.inv_absorb_data {s s' : State} {byte : Byte} (h : Running s) (hp : s.phase = .data)
    (room : s.c.toNat < s.var.blockBytes) (blocks : s.var.blockBytes ∣ s.t.toNat)
    (stored : absorb byte s = some s') : Inv s' := by
  have running := h.after_absorb room stored
  obtain ⟨hc, rfl⟩ := absorb_some stored
  have hc1 := c_succ_toNat hc
  refine running.inv (.inr (.inl hp)) (by simp [hp]) (fun _ => blocks) (fun _ h0 => ?_) (by simp [hp])
  have : (s.c + 1).toNat = 0 := congrArg BitVec.toNat h0
  omega

/-! ### The end of the key block -/

theorem ofNat_blockBytes_toNat (var : Variant) :
    (BitVec.ofNat 8 var.blockBytes).toNat = var.blockBytes := by cases var <;> rfl

theorem closeKeyBlock_last {s : State} (h : s.c = s.kk) :
    closeKeyBlock s = { s with c := BitVec.ofNat 8 s.var.blockBytes, phase := .data } := if_pos h

theorem closeKeyBlock_more {s : State} (h : s.c ≠ s.kk) : closeKeyBlock s = s := if_neg h

/-- An absorbed key byte leaves the invariant, whether or not it is the last (R160, R161). -/
theorem Inv.after_closeKeyBlock {s s' : State} {byte : Byte} (h : Inv s) (hp : s.phase = .key)
    (stored : absorb byte s = some s') : Inv (closeKeyBlock s') := by
  have before := h.running (.inl hp)
  obtain ⟨more, ht, hh⟩ := h.key hp
  have hk := before.lengths.2.2
  have hbb := kkMax_lt_blockBytes s.var
  have after := before.after_absorb (by omega) stored
  obtain ⟨hc, rfl⟩ := absorb_some stored
  have hc1 := c_succ_toNat hc
  by_cases last : s.c + 1 = s.kk
  · rw [closeKeyBlock_last last]
    have hbb8 := ofNat_blockBytes_toNat s.var
    have running : Running { s with
        buf := Memory.write s.buf s.c.toNat byte
        c := BitVec.ofNat 8 s.var.blockBytes
        phase := .data } :=
      { after with
        inBlock := hbb8.le
        padding := fun i hi => after.padding i (after.inBlock.trans (hbb8 ▸ hi)) }
    refine running.inv (.inr (.inl rfl)) nofun (fun _ => by simp [ht]) (fun _ h0 => ?_) nofun
    have : (BitVec.ofNat 8 s.var.blockBytes).toNat = 0 := congrArg BitVec.toNat h0
    omega
  · rw [closeKeyBlock_more last]
    have : s.c.toNat + 1 ≠ s.kk.toNat := fun e => last (BitVec.eq_of_toNat_eq (hc1.trans e))
    exact after.inv (.inl hp) (fun _ => ⟨by simp only [hc1]; omega, ht, hh⟩) (by simp [hp])
      (by simp [hp]) (by simp [hp])

/-! ### A compression event -/

theorem counterBits_le (var : Variant) : var.counterBits ≤ 128 := by cases var <;> decide

theorem counterWouldOverflow_eq_false {n : Nat} {s : State} :
    counterWouldOverflow n s = false ↔ s.t.toNat + n < 2 ^ s.var.counterBits := by
  simp [counterWouldOverflow]

/-- A counter that does not overflow advances as a natural number (R195). -/
theorem t_add_toNat {n : Nat} {s : State} (fits : counterWouldOverflow n s = false) :
    (s.t + BitVec.ofNat 128 n).toNat = s.t.toNat + n := by
  have hlt := counterWouldOverflow_eq_false.1 fits
  have hle : 2 ^ s.var.counterBits ≤ 2 ^ 128 :=
    Nat.pow_le_pow_right (by decide) (counterBits_le s.var)
  rw [BitVec.toNat_add, BitVec.toNat_ofNat]
  omega

/-- A compression event keeps the items of the invocation. -/
theorem Running.after_compressEvent {s : State} (h : Running s) {n : Nat}
    (fits : counterWouldOverflow n s = false) (final : Bool) :
    Running (compressEvent final n s) where
  err := h.err
  lengths := h.lengths
  inBlock := by simp
  padding i _ := by simp
  narrow hS i := by
    replace hS : s.var = .S := hS
    have hlt := store8_get_toNat_lt s.var (feedForward (load8 s.var s.h) (load16 s.var
      (ticks s.var (8 * s.var.rounds)
        (startSequencer final { s with t := s.t + BitVec.ofNat 128 n })).v)) i
    rwa [show 2 ^ s.var.wordBits = 2 ^ 32 by rw [hS]; rfl] at hlt
  counter := by
    rw [compressEvent_t, compressEvent_var, t_add_toNat fits]
    exact counterWouldOverflow_eq_false.1 fits
  bufWf := by rw [compressEvent_buf]; exact wf_nil
  noWork := rfl
  countersZero := by simp

/-! ## Every command and every step -/

/-- The lengths `INIT` accepts, as bounds (R155). -/
theorem legalLengths_iff {var : Variant} {nn kk : Nat} :
    legalLengths var nn kk = true ↔ 1 ≤ nn ∧ nn ≤ var.nnMax ∧ kk ≤ var.kkMax := by
  simp [legalLengths, and_assoc]

theorem nnMax_le (var : Variant) : var.nnMax ≤ 64 := by cases var <;> decide

theorem kkMax_le (var : Variant) : var.kkMax ≤ 64 := by cases var <;> decide

/-- An accepted `INIT` starts an invocation that meets the invariant (R155). -/
theorem Inv.after_beginInvocation {s : State} (h : Inv s) {var : Variant} {nn kk : Nat}
    (permitted : s.phase = .idle ∨ s.phase = .done) (legal : legalLengths var nn kk = true) :
    Inv (beginInvocation var nn kk s) := by
  obtain ⟨hn1, hn, hk⟩ := legalLengths_iff.1 legal
  have hnn : (BitVec.ofNat 8 nn).toNat = nn := by
    have := nnMax_le var
    rw [BitVec.toNat_ofNat]; omega
  have hkk : (BitVec.ofNat 8 kk).toNat = kk := by
    have := kkMax_le var
    rw [BitVec.toNat_ofNat]; omega
  have running : Running (beginInvocation var nn kk s) :=
    { err := h.err_eq_none (notFault_of_idle_or_done permitted)
      lengths := by simp only [beginInvocation_nn, beginInvocation_kk, hnn, hkk]; exact ⟨hn1, hn, hk⟩
      inBlock := by simp
      padding := by simp
      narrow := by
        intro hS i
        replace hS : var = .S := hS
        subst hS
        exact store8_get_toNat_lt .S _ i
      counter := by simp
      bufWf := by rw [beginInvocation_buf]; exact wf_nil
      noWork := h.noWork
      countersZero := h.countersZero }
  by_cases keyed : 0 < kk
  · have hp : (beginInvocation var nn kk s).phase = .key := by simp [keyed]
    exact running.inv (.inl hp) (fun _ => by simp [hnn, hkk, keyed]) (by simp [keyed]) (by simp [keyed])
      (by simp [keyed])
  · have hp : (beginInvocation var nn kk s).phase = .data := by simp [keyed]
    obtain rfl : kk = 0 := by omega
    exact running.inv (.inr (.inl hp)) (by simp) (by simp) (fun _ _ => by simp [hnn]) (by simp)

/-- Every command keeps the invariant. -/
theorem CommandOutcome.inv {i : Instr} {s t : State} (o : CommandOutcome s i t) (h : Inv s) :
    Inv t := by
  cases o with
  | rejected => exact h.after_reject
  | faulted _ _ f => exact h.after_raiseFault f
  | reset => exact inv_resetEngine s
  | init permitted legal => exact (h.after_beginInvocation permitted legal).after_respond _ _
  | keyb permitted stored => exact (h.after_closeKeyBlock permitted stored).after_respond _ _
  | datab permitted notFull stored =>
    obtain ⟨hle, blocks⟩ := h.data permitted
    exact ((h.running (.inr (.inl permitted))).inv_absorb_data permitted (by omega) blocks
      stored).after_respond _ _
  | databFull permitted full fits stored =>
    have running := (h.running (.inr (.inl permitted))).after_compressEvent fits false
    have blocks : s.var.blockBytes ∣ (s.t + BitVec.ofNat 128 s.var.blockBytes).toNat := by
      rw [t_add_toNat fits]
      exact (Nat.dvd_add_self_right).2 (h.data permitted).2
    exact (running.inv_absorb_data permitted (blockBytes_pos s.var) blocks stored).after_respond _ _
  | final permitted fits =>
    have running := (h.running (.inr (.inl permitted))).after_compressEvent fits true
    have inDone : Running { compressEvent true s.c.toNat s with phase := .done } := { running with }
    exact (inDone.inv (.inr (.inr rfl)) nofun nofun nofun fun _ => ⟨rfl, rfl⟩).after_respond _ _
  | read _ value => exact h.after_respond _ _

theorem Inv.after_illegalWord {s : State} (h : Inv s) : Inv (illegalWord s) := by
  obtain ⟨-, e⟩ | ⟨-, e⟩ := illegalWord_cases s <;> rw [e]
  · exact h.after_reject
  · exact h.after_raiseFault _

/-- Settles O24: the four kinds of step, each with the operation's own law. -/
theorem stepKeepsInvariant : Obligations.StepKeepsInvariant := by
  intro s t h hs
  obtain rfl | ⟨rest, rfl⟩ | ⟨rest, rfl⟩ | ⟨i, rest, hi⟩ := step_outcome hs
  · exact h
  · exact inv_hardwareReset _
  · exact (h.withInput rest).after_illegalWord
  · exact (exec_outcome hi).inv (h.withInput rest)

/-- Settles O23: the reset state is zero and in `IDLE`. -/
theorem resetMeetsInvariant : Obligations.ResetMeetsInvariant :=
  inv_hardwareReset State.reset

end Sys2Proof.Machine
end

section
/-! SUPPORT. What an absorbed byte and the end of the key block leave alone. -/

namespace Sys2Proof.Machine

@[simp] theorem closeKeyBlock_buf (s : State) : (closeKeyBlock s).buf = s.buf := by
  unfold closeKeyBlock; split <;> rfl

@[simp] theorem closeKeyBlock_r (s : State) : (closeKeyBlock s).r = s.r := by
  unfold closeKeyBlock; split <;> rfl

@[simp] theorem closeKeyBlock_g (s : State) : (closeKeyBlock s).g = s.g := by
  unfold closeKeyBlock; split <;> rfl

theorem absorb_phase {s s' : State} {byte : Byte} (stored : absorb byte s = some s') :
    s'.phase = s.phase := by
  obtain ⟨-, rfl⟩ := absorb_some stored; rfl

theorem absorb_t {s s' : State} {byte : Byte} (stored : absorb byte s = some s') : s'.t = s.t := by
  obtain ⟨-, rfl⟩ := absorb_some stored; rfl

theorem absorb_r_g {s s' : State} {byte : Byte} (stored : absorb byte s = some s') :
    s'.r = s.r ∧ s'.g = s.g := by
  obtain ⟨-, rfl⟩ := absorb_some stored; exact ⟨rfl, rfl⟩

/-- The end of the key block stays in the key phase or opens the data phase (R161). -/
theorem closeKeyBlock_phase (s : State) :
    (closeKeyBlock s).phase = s.phase ∨ (closeKeyBlock s).phase = .data := by
  unfold closeKeyBlock; split <;> simp

end Sys2Proof.Machine
end

section
/-! PROOFS. `T + C` counts the bytes absorbed (R41 item 7). -/

namespace Sys2Proof.Machine

@[simp] theorem absorbedCount_respond (rc : BitVec 4) (value : Word) (s : State) :
    absorbedCount (respond rc value s) = absorbedCount s := rfl

theorem absorbedCount_absorb {s s' : State} {byte : Byte} (stored : absorb byte s = some s') :
    absorbedCount s' = absorbedCount s + 1 := by
  obtain ⟨hc, rfl⟩ := absorb_some stored
  simp only [absorbedCount, c_succ_toNat hc, Nat.add_assoc]

/-- A compression event that advances `T` by the bytes waiting moves them from `C` to `T`. -/
theorem absorbedCount_compressEvent {s : State} (final : Bool)
    (fits : counterWouldOverflow s.c.toNat s = false) :
    absorbedCount (compressEvent final s.c.toNat s) = absorbedCount s := by
  simp only [absorbedCount, compressEvent_t, compressEvent_c, t_add_toNat fits]
  rfl

/-- The key block counts as a whole block, since no byte is in `T` before it. -/
theorem absorbedCount_closeKeyBlock {s : State} (ht : s.t = 0) (inKey : s.phase = .key)
    (closed : (closeKeyBlock s).phase = .data) :
    absorbedCount (closeKeyBlock s) = (closeKeyBlock s).var.blockBytes := by
  by_cases last : s.c = s.kk
  · rw [closeKeyBlock_last last]
    simp only [absorbedCount, ht, ofNat_blockBytes_toNat]
    exact Nat.zero_add _
  · rw [closeKeyBlock_more last, inKey] at closed
    cases closed

theorem absorbedCount_init {var : Variant} {nn : Nat} {s t : State}
    (o : CommandOutcome s (.init var nn 0) t) (hp : t.phase = .data) : absorbedCount t = 0 := by
  obtain ⟨-, -, rfl⟩ := o.init_runs (by simp [hp])
  rfl

theorem absorbedCount_keyb {byte : Byte} {s t : State} (h : Inv s)
    (o : CommandOutcome s (.keyb byte) t) (hp : t.phase = .data) :
    absorbedCount t = t.var.blockBytes := by
  obtain ⟨inKey, s', stored, rfl⟩ := o.keyb_runs (by simp [hp])
  obtain ⟨-, ht, -⟩ := h.key inKey
  exact absorbedCount_closeKeyBlock ((absorb_t stored).trans ht)
    ((absorb_phase stored).trans inKey) hp

theorem absorbedCount_datab {byte : Byte} {s t : State}
    (o : CommandOutcome s (.datab byte) t) (hp : t.phase = .data) :
    absorbedCount t = absorbedCount s + 1 := by
  obtain ⟨s', rfl, ⟨-, stored⟩ | ⟨full, fits, stored⟩⟩ := o.datab_runs (by simp [hp])
  · rw [absorbedCount_respond, absorbedCount_absorb stored]
  · rw [← full] at fits stored
    rw [absorbedCount_respond, absorbedCount_absorb stored, absorbedCount_compressEvent false fits]

theorem absorbedCount_final {s t : State} (o : CommandOutcome s .final t) (hp : t.phase = .done) :
    t.t.toNat = absorbedCount s ∧ absorbedCount t = absorbedCount s := by
  obtain ⟨fits, rfl⟩ := o.final_runs (by simp [hp])
  exact ⟨t_add_toNat fits, absorbedCount_compressEvent true fits⟩

/-- Settles O26: one clause for each of the four commands that move the count. -/
theorem absorbedCountIsTPlusC : Obligations.AbsorbedCountIsTPlusC := fun _ _ h =>
  ⟨fun _ _ hx => absorbedCount_init (exec_outcome hx),
    fun _ hx => absorbedCount_keyb h (exec_outcome hx),
    fun _ hx => absorbedCount_datab (exec_outcome hx),
    fun hx => absorbedCount_final (exec_outcome hx)⟩

end Sys2Proof.Machine
end

section
/-! PROOFS. What lasts and what is forgotten: the digest in `DONE` (R21, R185), the past at `INIT`
(R43). -/

namespace Sys2Proof.Machine

/-- Settles O30: the outcomes left in `DONE` either write no `H` or are the ones named. -/
theorem digestStaysUntilInitResetOrFault : Obligations.DigestStaysUntilInitResetOrFault := by
  intro i s t inDone hx changed
  cases exec_outcome hx with
  | rejected => exact absurd rfl changed
  | faulted => exact .inr (.inl rfl)
  | reset => exact .inl rfl
  | init => exact .inr (.inr ⟨_, _, _, rfl⟩)
  | keyb permitted => simp [inDone] at permitted
  | datab permitted => simp [inDone] at permitted
  | databFull permitted => simp [inDone] at permitted
  | final permitted => simp [inDone] at permitted
  | read => exact absurd rfl changed

/-- The state an `INIT` leaves depends on no field but those it does not write: `ERR`, the registers of
a compression and the host's events. -/
theorem respond_beginInvocation_congr {s₁ s₂ : State} (var : Variant) (nn kk : Nat)
    (err : s₁.err = s₂.err) (work : s₁.work = s₂.work) (r : s₁.r = s₂.r) (g : s₁.g = s₂.g)
    (input : s₁.input = s₂.input) :
    respond rcOk 0 (beginInvocation var nn kk s₁) = respond rcOk 0 (beginInvocation var nn kk s₂) := by
  simp only [respond, beginInvocation, err, work, r, g, input]

theorem execInit_accepted {s : State} {var : Variant} {nn kk : Nat}
    (permitted : s.phase = .idle ∨ s.phase = .done) (legal : legalLengths var nn kk = true) :
    execInit var nn kk s = .next (respond rcOk 0 (beginInvocation var nn kk s)) := by
  rw [execInit, permittedIn_allowed (by simpa using permitted) (notFault_of_idle_or_done permitted),
    if_pos legal]

/-- Settles O33: the invariant fixes every field that `INIT` does not write. -/
theorem initForgetsThePast : Obligations.InitForgetsThePast := by
  intro var nn kk s₁ s₂ t h₁ h₂ input hx started permitted₂
  obtain ⟨permitted₁, legal, rfl⟩ :=
    (exec_outcome hx).init_runs (by rcases started with p | p <;> simp [p])
  have err₁ := h₁.err_eq_none (notFault_of_idle_or_done permitted₁)
  have err₂ := h₂.err_eq_none (notFault_of_idle_or_done permitted₂)
  obtain ⟨r₁, g₁⟩ := h₁.countersZero
  obtain ⟨r₂, g₂⟩ := h₂.countersZero
  refine (execInit_accepted permitted₂ legal).trans (congrArg _ ?_)
  exact respond_beginInvocation_congr var nn kk (err₂.trans err₁.symm)
    (h₂.noWork.trans h₁.noWork.symm) (r₂.trans r₁.symm) (g₂.trans g₁.symm) input.symm

end Sys2Proof.Machine
end

section
/-! PROOFS. The byte frame of `BUF` (R27, R29, R51). -/

namespace Sys2Proof.Machine

/-- An absorbed byte stands at address `C`, and no other address changed. -/
theorem absorb_frame {s s' : State} {byte : Byte} (wf : Memory.wf s.buf)
    (stored : absorb byte s = some s') :
    Memory.read s'.buf s.c.toNat = byte ∧
      ∀ a, a ≠ s.c.toNat → Memory.read s'.buf a = Memory.read s.buf a := by
  obtain ⟨-, rfl⟩ := absorb_some stored
  exact ⟨read_write_same wf _ _, fun a ha => read_write_other _ _ ha⟩

theorem keyb_frame {byte : Byte} {s t : State} (wf : Memory.wf s.buf)
    (o : CommandOutcome s (.keyb byte) t) (hp : t.phase = .key ∨ t.phase = .data) :
    Memory.read t.buf s.c.toNat = byte ∧
      ∀ a, a ≠ s.c.toNat → Memory.read t.buf a = Memory.read s.buf a := by
  obtain ⟨-, s', stored, rfl⟩ := o.keyb_runs (by rcases hp with p | p <;> simp [p])
  rw [respond_buf, closeKeyBlock_buf]
  exact absorb_frame wf stored

theorem datab_frame {byte : Byte} {s t : State} (wf : Memory.wf s.buf)
    (o : CommandOutcome s (.datab byte) t) (hp : t.phase = .data)
    (notFull : s.c.toNat ≠ s.var.blockBytes) :
    Memory.read t.buf s.c.toNat = byte ∧
      ∀ a, a ≠ s.c.toNat → Memory.read t.buf a = Memory.read s.buf a := by
  obtain ⟨s', rfl, ⟨-, stored⟩ | ⟨full, -⟩⟩ := o.datab_runs (by simp [hp])
  · rw [respond_buf]
    exact absorb_frame wf stored
  · exact absurd full notFull

/-- After a compression the byte goes into an empty buffer. -/
theorem databFull_frame {byte : Byte} {s t : State}
    (o : CommandOutcome s (.datab byte) t) (hp : t.phase = .data)
    (full : s.c.toNat = s.var.blockBytes) :
    Memory.read t.buf 0 = byte ∧ ∀ a, a ≠ 0 → Memory.read t.buf a = 0 := by
  obtain ⟨s', rfl, ⟨notFull, -⟩ | ⟨-, -, stored⟩⟩ := o.datab_runs (by simp [hp])
  · exact absurd full notFull
  · rw [respond_buf]
    exact absorb_frame wf_nil stored

theorem read_frame {i : Instr} {s t : State}
    (isRead : (∃ idx, i = .rdreg idx) ∨ (∃ idx, i = .rddig idx) ∨ (∃ addr, i = .rdrom addr))
    (o : CommandOutcome s i t) (samePhase : t.phase = s.phase) : t.buf = s.buf := by
  cases o with
  | rejected => rfl
  | faulted _ notFault => exact absurd samePhase.symm notFault
  | read => rfl
  | reset | init | keyb | datab | databFull | final => simp at isRead

theorem buf_cleared {i : Instr} {s t : State}
    (clears : i = .reset ∨ i = .final ∨ ∃ var nn kk, i = .init var nn kk)
    (o : CommandOutcome s i t) (runs : s.phase ≠ .fault ∨ i = .reset) : t.buf = [] := by
  cases o with
  | rejected ne inFault => exact absurd inFault (runs.resolve_right ne)
  | faulted | reset | init | final => rfl
  | keyb | datab | databFull => simp at clears
  | read isRead => obtain ⟨_, rfl⟩ | ⟨_, rfl⟩ | ⟨_, rfl⟩ := isRead <;> simp at clears

theorem buf_cleared_of_fault {i : Instr} {s t : State} (o : CommandOutcome s i t)
    (notFault : s.phase ≠ .fault) (inFault : t.phase = .fault) : t.buf = [] := by
  cases o with
  | rejected _ h => exact absurd h notFault
  | faulted => rfl
  | reset => rfl
  | init => rfl
  | @keyb _ s' permitted stored =>
    rw [respond_phase] at inFault
    rcases closeKeyBlock_phase s' with h | h <;>
      simp [h, absorb_phase stored, permitted] at inFault
  | datab permitted _ stored => simp [absorb_phase stored, permitted] at inFault
  | databFull permitted _ _ stored => simp [absorb_phase stored, permitted] at inFault
  | final => cases inFault
  | read => exact absurd inFault notFault

/-- Settles O34: one clause for each way a command treats `BUF`. -/
theorem bufferBytesFrame : Obligations.BufferBytesFrame := fun _ _ wf =>
  ⟨fun _ hx => keyb_frame wf (exec_outcome hx),
    fun _ hx => datab_frame wf (exec_outcome hx),
    fun _ hx => databFull_frame (exec_outcome hx),
    fun _ isRead hx samePhase a => by rw [read_frame isRead (exec_outcome hx) samePhase],
    fun _ clears hx runs a => by rw [buf_cleared clears (exec_outcome hx) runs, read_nil],
    fun _ hx notFault inFault a => by
      rw [buf_cleared_of_fault (exec_outcome hx) notFault inFault, read_nil]⟩

end Sys2Proof.Machine
end

section
/-! PROOFS. When a command stops: where `BUF` or `H` ends (logs 7, 8). -/

namespace Sys2Proof.Machine

/-- The outcome is no next state. -/
def Stops (k : Result) : Prop := ∀ t, k ≠ .next t

@[simp] theorem stops_next (s : State) : ¬ Stops (.next s) := fun h => h s rfl

@[simp] theorem stops_fault (f : Fault) : Stops (.fault f) := by simp [Stops]

@[simp] theorem stops_ite {p : Prop} [Decidable p] {k k' : Result} :
    Stops (if p then k else k') ↔ (p ∧ Stops k) ∨ (¬ p ∧ Stops k') := by
  split <;> simp [*]

@[simp] theorem stops_unlessFaulted {s : State} {k : Result} :
    Stops (unlessFaulted s k) ↔ s.phase ≠ .fault ∧ Stops k := by
  simp [unlessFaulted]

@[simp] theorem stops_permittedIn {ps : List Phase} {s : State} {k : Result} :
    Stops (permittedIn ps s k) ↔ s.phase ≠ .fault ∧ s.phase ∈ ps ∧ Stops k := by
  simp [permittedIn]

/-- A byte finds no room exactly above `BUF[127]`. -/
theorem absorb_eq_none_iff {s : State} {byte : Byte} : absorb byte s = none ↔ 128 ≤ s.c.toNat := by
  rcases Nat.lt_or_ge s.c.toNat 128 with hc | hc
  · simp [absorb_eq hc, hc]
  · simp [absorb_none hc, hc]

theorem stops_execKeyb {byte : Byte} {s : State} :
    Stops (execKeyb byte s) ↔ s.phase = .key ∧ 128 ≤ s.c.toNat := by
  rw [execKeyb, stops_permittedIn, ← absorb_eq_none_iff (byte := byte)]
  cases absorb byte s <;> simp +contextual

theorem stops_absorbData {byte : Byte} {s : State} :
    Stops (absorbData byte s) ↔ 128 ≤ s.c.toNat := by
  rw [absorbData, ← absorb_eq_none_iff (byte := byte)]
  cases absorb byte s <;> simp

/-- A full block is compressed first, and then there is room. -/
theorem stops_execDatab {byte : Byte} {s : State} :
    Stops (execDatab byte s) ↔
      s.phase = .data ∧ s.c.toNat ≠ s.var.blockBytes ∧ 128 ≤ s.c.toNat := by
  rw [execDatab, stops_permittedIn]
  by_cases full : s.c.toNat = s.var.blockBytes
  · simp [full, stops_absorbData]
  · simp +contextual [full, stops_absorbData]

theorem not_stops_execInit {var : Variant} {nn kk : Nat} {s : State} :
    ¬ Stops (execInit var nn kk s) := by simp [execInit]

theorem not_stops_execFinal {s : State} : ¬ Stops (execFinal s) := by simp [execFinal]

theorem not_stops_execRdreg {idx : Nat} {s : State} : ¬ Stops (execRdreg idx s) := by
  unfold execRdreg; split <;> simp

theorem not_stops_execRdrom {addr : Nat} {s : State} : ¬ Stops (execRdrom addr s) := by
  unfold execRdrom; cases rom addr <;> simp

theorem stops_execRddig {idx : Nat} {s : State} :
    Stops (execRddig idx s) ↔ s.phase = .done ∧ idx < s.nn.toNat ∧ 8 * s.var.wordBytes ≤ idx := by
  rw [execRddig, stops_permittedIn, stops_ite, ← digestByte_eq_none]
  cases digestByte s idx <;> simp +contextual

/-- Settles O22: command by command. -/
theorem stopsExactlyWhereStorageEnds : Obligations.StopsExactlyWhereStorageEnds := by
  intro i s
  change Stops (exec i s) ↔ _
  cases i with
  | reset => simp [exec, execReset]
  | init => simp [exec, not_stops_execInit]
  | keyb => simp [exec, stops_execKeyb]
  | datab => simp [exec, stops_execDatab]
  | final => simp [exec, not_stops_execFinal]
  | rdreg => simp [exec, not_stops_execRdreg]
  | rddig => simp [exec, stops_execRddig]
  | rdrom => simp [exec, not_stops_execRdrom]

end Sys2Proof.Machine
end

section
/-! PROOFS. The sequencer's counters `r` and `g` (R36). -/

namespace Sys2Proof.Machine

/-- From `(0, 0)` the counters number the mixer calls of a compression in order. -/
theorem ticks_position_of_start {var : Variant} {q : Sequencer} {k : Nat} (hr : q.r = 0)
    (hg : q.g = 0) (hk : k < 8 * var.rounds) :
    (ticks var k q).r.toNat < var.rounds ∧ (ticks var k q).position = k := by
  have start : q.position = 0 := by simp [Sequencer.position, hr, hg]
  obtain ⟨position, inRounds⟩ := ticks_position var k q (by rw [hr]; cases var <;> decide)
  rw [start, Nat.zero_add, Nat.mod_eq_of_lt hk] at position
  exact ⟨inRounds, position⟩

/-- Every command leaves the counters at 0: a compression ends there, nothing else moves them. -/
theorem CommandOutcome.countersZero {i : Instr} {s t : State} (o : CommandOutcome s i t)
    (hr : s.r = 0) (hg : s.g = 0) : t.r = 0 ∧ t.g = 0 := by
  cases o with
  | rejected | faulted | init | read => exact ⟨hr, hg⟩
  | reset => exact ⟨rfl, rfl⟩
  | keyb _ stored => simp [absorb_r_g stored, hr, hg]
  | datab _ _ stored => simp [absorb_r_g stored, hr, hg]
  | databFull _ _ _ stored => simp [absorb_r_g stored]
  | final => simp

theorem step_keeps_countersZero {s t : State} (hr : s.r = 0) (hg : s.g = 0)
    (hs : step s = .next t) : t.r = 0 ∧ t.g = 0 := by
  obtain rfl | ⟨rest, rfl⟩ | ⟨rest, rfl⟩ | ⟨i, rest, hi⟩ := step_outcome hs
  · exact ⟨hr, hg⟩
  · exact ⟨rfl, rfl⟩
  · obtain ⟨-, e⟩ | ⟨-, e⟩ := illegalWord_cases { s with input := rest } <;> rw [e] <;> exact ⟨hr, hg⟩
  · exact (exec_outcome hi).countersZero hr hg

/-! ## No outcome depends on the counters -/

/-- The state with other values of `r` and `g`. -/
def State.withCounters (s : State) (r : BitVec 4) (g : BitVec 3) : State := { s with r := r, g := g }

/-- `k'` is the outcome `k` up to the values of `r` and `g`. -/
def SameButCounters (k k' : Result) : Prop :=
  (∀ t, k = .next t → ∃ r g, k' = .next (t.withCounters r g)) ∧
  (∀ f, k = .fault f → k' = .fault f)

theorem SameButCounters.next (t : State) (r : BitVec 4) (g : BitVec 3) :
    SameButCounters (.next t) (.next (t.withCounters r g)) :=
  ⟨fun _ h => by cases h; exact ⟨r, g, rfl⟩, nofun⟩

theorem SameButCounters.refl (k : Result) : SameButCounters k k :=
  ⟨fun t h => ⟨t.r, t.g, h⟩, fun _ h => h⟩

theorem SameButCounters.ite {p : Prop} [Decidable p] {a a' b b' : Result}
    (ha : SameButCounters a a') (hb : SameButCounters b b') :
    SameButCounters (if p then a else b) (if p then a' else b') := by
  split <;> assumption

section
variable {s : State} {r : BitVec 4} {g : BitVec 3}

theorem SameButCounters.unlessFaulted {k k' : Result} (h : SameButCounters k k') :
    SameButCounters (unlessFaulted s k) (unlessFaulted (s.withCounters r g) k') :=
  .ite (.next (reject s) r g) h

theorem SameButCounters.permittedIn {ps : List Phase} {k k' : Result} (h : SameButCounters k k') :
    SameButCounters (permittedIn ps s k) (permittedIn ps (s.withCounters r g) k') :=
  .unlessFaulted (.ite h (.next (raiseFault .sequenceError s) r g))

theorem absorb_withCounters (byte : Byte) :
    absorb byte (s.withCounters r g) =
      (absorb byte s).map (·.withCounters r g) := by
  rcases Nat.lt_or_ge s.c.toNat 128 with hc | hc
  · rw [absorb_eq hc, absorb_eq (s := s.withCounters r g) hc]; rfl
  · rw [absorb_none hc, absorb_none (s := s.withCounters r g) hc]; rfl

theorem closeKeyBlock_withCounters :
    closeKeyBlock (s.withCounters r g) = (closeKeyBlock s).withCounters r g := by
  by_cases last : s.c = s.kk
  · rw [closeKeyBlock_last last, closeKeyBlock_last (s := s.withCounters r g) last]; rfl
  · rw [closeKeyBlock_more last, closeKeyBlock_more (s := s.withCounters r g) last]

/-- A compression starts its own count (R135). -/
theorem compressEvent_withCounters (final : Bool) (n : Nat) :
    compressEvent final n (s.withCounters r g) = compressEvent final n s := rfl

theorem execKeyb_withCounters (byte : Byte) :
    SameButCounters (execKeyb byte s) (execKeyb byte (s.withCounters r g)) := by
  refine .permittedIn ?_
  rw [absorb_withCounters]
  cases absorb byte s with
  | none => exact .refl _
  | some s' =>
    simp only [Option.map_some, closeKeyBlock_withCounters]
    exact .next _ r g

theorem absorbData_withCounters (byte : Byte) :
    SameButCounters (absorbData byte s) (absorbData byte (s.withCounters r g)) := by
  unfold absorbData
  rw [absorb_withCounters]
  cases absorb byte s with
  | none => exact .refl _
  | some s' => exact .next _ r g

theorem execDatab_withCounters (byte : Byte) :
    SameButCounters (execDatab byte s) (execDatab byte (s.withCounters r g)) := by
  refine .permittedIn (.ite (.ite (.next _ r g) ?_) (absorbData_withCounters byte))
  exact .refl _

theorem execRddig_withCounters (idx : Nat) :
    SameButCounters (execRddig idx s) (execRddig idx (s.withCounters r g)) := by
  refine .permittedIn (.ite (.next _ r g) ?_)
  rw [show digestByte (s.withCounters r g) idx = digestByte s idx from rfl]
  cases digestByte s idx with
  | none => exact .refl _
  | some b => exact .next _ r g

theorem readReg_withCounters (reg : Reg) : readReg (s.withCounters r g) reg = readReg s reg := by
  cases reg <;> rfl

theorem execRdreg_withCounters (idx : Nat) :
    SameButCounters (execRdreg idx s) (execRdreg idx (s.withCounters r g)) := by
  unfold execRdreg
  cases regOf idx with
  | none => exact .unlessFaulted (.next _ r g)
  | some reg =>
    simp only [readReg_withCounters]
    exact .next _ r g

theorem execRdrom_withCounters (addr : Nat) :
    SameButCounters (execRdrom addr s) (execRdrom addr (s.withCounters r g)) := by
  refine .unlessFaulted ?_
  cases rom addr <;> exact .next _ r g

end

/-- No command's outcome shows the counters it began with. -/
theorem exec_withCounters (i : Instr) (s : State) (r : BitVec 4) (g : BitVec 3) :
    SameButCounters (exec i s) (exec i (s.withCounters r g)) := by
  cases i with
  | reset => exact .refl _
  | init => exact .permittedIn (.ite (.next _ r g) (.next _ r g))
  | keyb byte => exact execKeyb_withCounters byte
  | datab byte => exact execDatab_withCounters byte
  | final => exact .permittedIn (.ite (.next _ r g) (.refl _))
  | rdreg idx => exact execRdreg_withCounters idx
  | rddig idx => exact execRddig_withCounters idx
  | rdrom addr => exact execRdrom_withCounters addr

/-- Settles O48: the count of the ticks, the counters of a step, and the independence of every outcome. -/
theorem sequencerCountersAreHiddenAndZero : Obligations.SequencerCountersAreHiddenAndZero :=
  ⟨fun _ _ _ => ticks_position_of_start, rfl, rfl, fun _ _ => step_keeps_countersZero,
    exec_withCounters⟩

end Sys2Proof.Machine
end

section
/-! PROOFS. The step and the command that waits (R62, R75). -/

namespace Sys2Proof.Machine

theorem deliver_idle {s : State} (input : s.input = []) : deliver s = .idle := by
  simp [deliver, input]

theorem deliver_command {s : State} {w : CmdWord} {rest : List HostEvent} {i : Instr}
    (input : s.input = .command w :: rest) (decodes : decode w = .command i) :
    deliver s = .run i { s with input := rest } := by
  simp [deliver, input, decodes]

/-- Settles O20: a step is what the delivery asks for. -/
theorem stepRunsTheDeliveredCommand : Obligations.StepRunsTheDeliveredCommand := fun _ _ _ _ =>
  ⟨fun input decodes => by rw [step, deliver_command input decodes],
    fun input => by rw [step, deliver_idle input]⟩

end Sys2Proof.Machine
end

section
/-! PROOFS. Reads have no side effect (R59). -/

namespace Sys2Proof.Machine

/-- A read does not see the response of the command before it, and overwrites it. -/
theorem exec_respond_of_read {i : Instr} (rc : BitVec 4) (value : Word) (s : State)
    (isRead : (∃ idx, i = .rdreg idx) ∨ (∃ idx, i = .rddig idx) ∨ (∃ addr, i = .rdrom addr)) :
    exec i (respond rc value s) = exec i s := by
  obtain ⟨idx, rfl⟩ | ⟨idx, rfl⟩ | ⟨addr, rfl⟩ := isRead <;> rfl

/-- A read that does not take the engine into `FAULT` only responds. -/
theorem CommandOutcome.read_responds {i : Instr} {s t : State} (o : CommandOutcome s i t)
    (isRead : (∃ idx, i = .rdreg idx) ∨ (∃ idx, i = .rddig idx) ∨ (∃ addr, i = .rdrom addr))
    (samePhase : t.phase = s.phase) : ∃ rc value, t = respond rc value s := by
  cases o with
  | rejected => exact ⟨_, _, rfl⟩
  | faulted _ notFault => exact absurd samePhase.symm notFault
  | read => exact ⟨_, _, rfl⟩
  | reset | init | keyb | datab | databFull | final => simp at isRead

/-- Settles O31: the second read runs in the first one's state up to the response. -/
theorem readsHaveNoSideEffect : Obligations.ReadsHaveNoSideEffect := by
  intro i s t isRead hx samePhase
  obtain ⟨rc, value, rfl⟩ := (exec_outcome hx).read_responds isRead samePhase
  exact ⟨rfl, (exec_respond_of_read rc value s isRead).trans hx⟩

end Sys2Proof.Machine
end

section
/-! PROOFS. Several engines side by side (R67, R212). -/

namespace Sys2Proof.Machine

/-- A system steps when engine `k` does, and then only the state of engine `k` is replaced. -/
theorem systemStep_next {k : Nat} {sys sys' : System} (h : systemStep k sys = some (.next sys')) :
    ∃ s s', sys.engines[k]? = some s ∧ step s = .next s' ∧ sys' = ⟨sys.engines.set k s'⟩ := by
  unfold systemStep at h
  split at h
  · cases h
  next s engine =>
    split at h <;> cases h
    next s' stepped => exact ⟨s, s', engine, stepped, rfl⟩

/-- Settles O35: what a list holds after one element is replaced. -/
theorem instancesDoNotTouchEachOther : Obligations.InstancesDoNotTouchEachOther := by
  intro k sys sys' h
  obtain ⟨s, s', engine, stepped, rfl⟩ := systemStep_next h
  obtain ⟨inRange, -⟩ := List.getElem?_eq_some_iff.1 engine
  exact ⟨⟨s, s', engine, List.getElem?_set_self inRange, stepped⟩,
    fun j other => List.getElem?_set_ne other.symm⟩

end Sys2Proof.Machine
end

section
/-! PROOFS. The byte-wide transport (R56, log 10). -/

namespace Sys2Proof

theorem vec4_get {α : Type} (f : Fin 4 → α) (i : Fin 4) : #v[f 0, f 1, f 2, f 3][i] = f i := by
  fin_cases i <;> rfl

/-- A word is its four byte lanes, the highest first. -/
theorem append_lanes (w : CmdWord) :
    bits w 24 8 ++ bits w 16 8 ++ bits w 8 8 ++ bits w 0 8 = w := by
  simp only [bits]
  rw [BitVec.extractLsb'_append_extractLsb'_eq_extractLsb' (by rfl : 24 = 16 + 8),
    BitVec.extractLsb'_append_extractLsb'_eq_extractLsb' (by rfl : 16 = 8 + 8),
    BitVec.extractLsb'_append_extractLsb'_eq_extractLsb' (by rfl : 8 = 0 + 8)]
  exact BitVec.extractLsb'_eq_self

/-- What arrives is the word when every lane is found where the order sent it. -/
theorem wordOfBytes_of_lanes {order : Equiv.Perm (Fin 4)} {arrived : Vector Byte 4} {w : CmdWord}
    (sent : ∀ i : Fin 4, arrived[order i] = bits w (8 * i.val) 8) :
    wordOfBytes order arrived = w := by
  rw [wordOfBytes, sent 0, sent 1, sent 2, sent 3]
  exact append_lanes w

/-- Settles O40: the byte sent at position `order i` is lane `order.symm (order i)`, which is lane `i`. -/
theorem byteOrderDoesNotMatter : Obligations.ByteOrderDoesNotMatter := fun order w =>
  congrArg decode <| wordOfBytes_of_lanes fun i =>
    (vec4_get (fun position => bits w (8 * (order.symm position).val) 8) (order i)).trans
      (by rw [order.symm_apply_apply])

end Sys2Proof
end

section
/-! SUPPORT. The decoder row by row (R71 to R73, R76): a word is a command exactly when it stands in the
command's row of the opcode map and its fields hold the command's operands. -/

namespace Sys2Proof

/-! ## Formats -/

/-- How many low bits of a word are operand fields: formats `Z`, `P`, `B`, `I` and `A` of R71. The bits
between them and the opcode are reserved. -/
def operandBits : Instr → Nat
  | .reset | .final => 0
  | .init .. => 17
  | .keyb _ | .datab _ | .rdreg _ | .rddig _ => 8
  | .rdrom _ => 9

/-- The command of the row of `i` whose operands are the fields of the word (R71, R77). -/
def withOperandsOf (w : CmdWord) : Instr → Instr
  | .reset => .reset
  | .init .. => .init (variantOfBit (bits w 16 1)) (bits w 0 8).toNat (bits w 8 8).toNat
  | .keyb _ => .keyb (bits w 0 8)
  | .datab _ => .datab (bits w 0 8)
  | .final => .final
  | .rdreg _ => .rdreg (bits w 0 8).toNat
  | .rddig _ => .rddig (bits w 0 8).toNat
  | .rdrom _ => .rdrom (bits w 0 9).toNat

/-- The word has the opcode of `i` and no reserved bit of its format set (R73). -/
def InRow (w : CmdWord) (i : Instr) : Prop :=
  (bits w 24 8).toNat = opcode i ∧ w.toNat / 2 ^ operandBits i % 2 ^ (24 - operandBits i) = 0

/-- Operands stay inside the operand bits of their format. -/
theorem operandField_lt_operandBits (i : Instr) : operandField i < 2 ^ operandBits i := by
  cases i with
  | init v nn kk => cases v <;> simp [operandField, operandBits, bitOfVariant] <;> omega
  | _ => simp [operandField, operandBits] <;> omega

@[simp] theorem opcode_withOperandsOf (w : CmdWord) (i : Instr) :
    opcode (withOperandsOf w i) = opcode i := by cases i <;> rfl

/-- What is read from a word fits its fields (R77). -/
theorem wf_withOperandsOf (w : CmdWord) (i : Instr) : (withOperandsOf w i).wf = true := by
  cases i <;> simp [withOperandsOf, Instr.wf, bits_toNat] <;> omega

/-- The fields read from a word are its operand bits. -/
theorem operandField_withOperandsOf (w : CmdWord) (i : Instr) :
    operandField (withOperandsOf w i) = w.toNat % 2 ^ operandBits i := by
  cases i <;> simp [withOperandsOf, operandField, operandBits, bits_toNat] <;> omega

/-- The fields of a command's word hold its operands, each at every value it can have. -/
theorem withOperandsOf_encode {i : Instr} (wf : i.wf = true) : withOperandsOf (encode i) i = i := by
  cases i with
  | reset => rfl
  | final => rfl
  | init var nn kk =>
    obtain ⟨hn, hk⟩ : nn < 256 ∧ kk < 256 := by simpa [Instr.wf] using wf
    have hv := (bitOfVariant var).isLt
    have field16 : bits (encode (.init var nn kk)) 16 1 = bitOfVariant var := by
      rw [bits_eq_iff, encode_init_toNat hn hk]
      omega
    simp only [withOperandsOf, field16, variantOfBit_bitOfVariant, bits_toNat,
      encode_init_toNat hn hk, Instr.init.injEq, true_and]
    omega
  | keyb byte =>
    refine congrArg Instr.keyb ((bits_eq_iff ..).2 ?_)
    rw [encode_keyb_toNat]
    omega
  | datab byte =>
    refine congrArg Instr.datab ((bits_eq_iff ..).2 ?_)
    rw [encode_datab_toNat]
    omega
  | rdreg idx =>
    have h : idx < 256 := by simpa [Instr.wf] using wf
    simp only [withOperandsOf, bits_toNat, encode_rdreg_toNat h, Instr.rdreg.injEq]
    omega
  | rddig idx =>
    have h : idx < 256 := by simpa [Instr.wf] using wf
    simp only [withOperandsOf, bits_toNat, encode_rddig_toNat h, Instr.rddig.injEq]
    omega
  | rdrom addr =>
    have h : addr < 512 := by simpa [Instr.wf] using wf
    simp only [withOperandsOf, bits_toNat, encode_rdrom_toNat h, Instr.rdrom.injEq]
    omega

/-! ## Rows -/

/-- The mask of a row covers everything above the operand bits. -/
theorem opcodeRow_mask (i : Instr) : (opcodeRow i).mask = BitVec.allOnes 32 <<< operandBits i := by
  cases i <;> simp only [opcodeRow, operandBits] <;> decide

theorem opcodeRow_pattern_toNat (i : Instr) : (opcodeRow i).pattern.toNat = opcode i * 2 ^ 24 := by
  cases i <;> simp only [opcodeRow, opcode] <;> decide

/-- `w & mask = match` says that the opcode is that of the row and every reserved bit is 0 (R72, R73). -/
theorem and_mask_eq_pattern_iff (w : CmdWord) (i : Instr) :
    w &&& (opcodeRow i).mask = (opcodeRow i).pattern ↔ InRow w i := by
  have hw := w.isLt
  rw [opcodeRow_mask, ← BitVec.shiftLeft_ushiftRight, ← BitVec.toNat_inj, opcodeRow_pattern_toNat,
    InRow, bits_toNat, BitVec.toNat_shiftLeft, BitVec.toNat_ushiftRight, Nat.shiftLeft_eq,
    Nat.shiftRight_eq_div_pow]
  cases i <;> simp only [operandBits, opcode] <;> omega

/-- The word of a command stands in the command's row. -/
theorem inRow_encode (i : Instr) : InRow (encode i) i := by
  refine ⟨Laws.OpcodeInHighByte.ofEncode i, ?_⟩
  have hf := operandField_lt_operandBits i
  rw [encode_toNat]
  cases i <;> simp only [operandBits] at hf ⊢ <;> omega

/-- A word that stands in a row is the word of what its fields hold. -/
theorem InRow.encode_withOperandsOf {w : CmdWord} {i : Instr} (row : InRow w i) :
    encode (withOperandsOf w i) = w := by
  obtain ⟨op, reserved⟩ := row
  have hw := w.isLt
  rw [← BitVec.toNat_inj, encode_toNat, opcode_withOperandsOf, operandField_withOperandsOf, ← op,
    bits_toNat]
  cases i <;> simp only [operandBits] at reserved ⊢ <;> omega

/-! ## The decoder -/

theorem commandIf_eq_command_iff {p : Prop} [Decidable p] {op : BitVec 8} {i j : Instr} :
    commandIf p op j = .command i ↔ p ∧ j = i := by
  unfold commandIf
  split <;> simp_all

/-- The opcode selects the row; the reserved bits decide whether there is a command. -/
theorem decode_of_opcode {w : CmdWord} {i : Instr} (op : (bits w 24 8).toNat = opcode i) :
    decode w = commandIf (w.toNat / 2 ^ operandBits i % 2 ^ (24 - operandBits i) = 0) (bits w 24 8)
      (withOperandsOf w i) := by
  have hop : bits w 24 8 = BitVec.ofNat 8 (opcode i) := BitVec.eq_of_toNat_eq (by
    rw [op, BitVec.toNat_ofNat, Nat.mod_eq_of_lt (opcode_lt i)])
  cases i <;> simp [decode, hop, opcode, operandBits, withOperandsOf, bits_eq_iff]

theorem opcode_of_decode {w : CmdWord} {i : Instr} (h : decode w = .command i) :
    (bits w 24 8).toNat = opcode i := by
  simp only [decode] at h
  split_ifs at h with op op op op op op op op <;>
    obtain ⟨-, rfl⟩ := commandIf_eq_command_iff.1 h <;> exact congrArg BitVec.toNat op

/-- A word that stands in the row of `i` is a command of that row, whatever operands `i` has. -/
theorem decode_of_inRow {w : CmdWord} {i : Instr} (row : InRow w i) :
    decode w = .command (withOperandsOf w i) := by
  obtain ⟨op, reserved⟩ := row
  rw [decode_of_opcode op, commandIf_eq_command_iff]
  exact ⟨reserved, rfl⟩

/-- A word is a command exactly when it stands in the command's row and its fields hold the operands. -/
theorem decode_eq_command_iff {w : CmdWord} {i : Instr} :
    decode w = .command i ↔ InRow w i ∧ withOperandsOf w i = i := by
  constructor
  · intro h
    have op := opcode_of_decode h
    rw [decode_of_opcode op, commandIf_eq_command_iff] at h
    obtain ⟨reserved, operands⟩ := h
    exact ⟨⟨op, reserved⟩, operands⟩
  · rintro ⟨row, operands⟩
    rw [decode_of_inRow row, operands]

theorem decode_of_and_mask {w : CmdWord} (i : Instr)
    (h : w &&& (opcodeRow i).mask = (opcodeRow i).pattern) :
    decode w = .command (withOperandsOf w i) :=
  decode_of_inRow ((and_mask_eq_pattern_iff w i).1 h)

theorem and_mask_of_decode {w : CmdWord} {i : Instr} (h : decode w = .command i) :
    w &&& (opcodeRow i).mask = (opcodeRow i).pattern :=
  (and_mask_eq_pattern_iff w i).2 (decode_eq_command_iff.1 h).1

end Sys2Proof
end

section
/-! PROOFS. Encoding and decoding are inverse (R76), the opcode map (R72), and words written out. -/

namespace Sys2Proof

/-- Settles O36: the word stands in the command's row, and its fields hold the operands. -/
theorem decodeOfEncodeIsTheCommand : Obligations.DecodeOfEncodeIsTheCommand := fun i wf =>
  decode_eq_command_iff.2 ⟨inRow_encode i, withOperandsOf_encode wf⟩

/-- Settles O37: a decoded command is what the fields of a word of its row hold. -/
theorem encodeOfDecodeIsTheWord : Obligations.EncodeOfDecodeIsTheWord := by
  intro w i h
  obtain ⟨row, operands⟩ := decode_eq_command_iff.1 h
  rw [← operands]
  exact ⟨row.encode_withOperandsOf, wf_withOperandsOf w i⟩

/-- Settles O38: each clause is its row of the opcode map. -/
theorem wordIsCommandExactlyWhenRowMatches : Obligations.WordIsCommandExactlyWhenRowMatches := fun _ =>
  ⟨⟨decode_of_and_mask .reset, and_mask_of_decode⟩,
    ⟨fun h => ⟨_, _, _, decode_of_and_mask (.init .B 0 0) h⟩, fun ⟨_, _, _, h⟩ => and_mask_of_decode h⟩,
    ⟨fun h => ⟨_, decode_of_and_mask (.keyb 0) h⟩, fun ⟨_, h⟩ => and_mask_of_decode h⟩,
    ⟨fun h => ⟨_, decode_of_and_mask (.datab 0) h⟩, fun ⟨_, h⟩ => and_mask_of_decode h⟩,
    ⟨decode_of_and_mask .final, and_mask_of_decode⟩,
    ⟨fun h => ⟨_, decode_of_and_mask (.rdreg 0) h⟩, fun ⟨_, h⟩ => and_mask_of_decode h⟩,
    ⟨fun h => ⟨_, decode_of_and_mask (.rddig 0) h⟩, fun ⟨_, h⟩ => and_mask_of_decode h⟩,
    ⟨fun h => ⟨_, decode_of_and_mask (.rdrom 0) h⟩, fun ⟨_, h⟩ => and_mask_of_decode h⟩⟩

/-- Settles O39: the legal words are those of their commands; the last two break R73 (b) and (a). -/
theorem writtenOutWordsDecodeRight : Obligations.WrittenOutWordsDecodeRight :=
  ⟨decodeOfEncodeIsTheCommand .reset rfl, decodeOfEncodeIsTheCommand (.init .S 28 7) rfl,
    decodeOfEncodeIsTheCommand (.keyb 0x6b) rfl, decodeOfEncodeIsTheCommand (.datab 0x61) rfl,
    decodeOfEncodeIsTheCommand .final rfl, decodeOfEncodeIsTheCommand (.rdreg 11) rfl,
    decodeOfEncodeIsTheCommand (.rddig 63) rfl, decodeOfEncodeIsTheCommand (.rdrom 0x1BF) rfl,
    by decide, by decide⟩

/-- Bits below a field that is clear there can be added as well as xor-ed. -/
theorem mul_two_pow_xor_of_lt {n hi lo : Nat} (h : lo < 2 ^ n) :
    (2 ^ n * hi) ^^^ lo = 2 ^ n * hi + lo := by
  have quotient : ((2 ^ n * hi) ^^^ lo) / 2 ^ n = hi := by
    rw [Nat.xor_div_two_pow, Nat.mul_div_cancel_left _ (by positivity), Nat.div_eq_of_lt h,
      Nat.xor_zero]
  have remainder : ((2 ^ n * hi) ^^^ lo) % 2 ^ n = lo := by
    rw [Nat.xor_mod_two_pow, Nat.mul_mod_right, Nat.mod_eq_of_lt h, Nat.zero_xor]
  rw [← Nat.div_add_mod ((2 ^ n * hi) ^^^ lo) (2 ^ n), quotient, remainder]

/-- The parameter word of lengths that fit their bytes: `0x0101`, `kk`, `nn` (R154). -/
theorem paramWord_toNat {nn kk : Nat} (hn : nn < 256) (hk : kk < 256) :
    (paramWord nn kk).toNat = 2 ^ 8 * (2 ^ 8 * 0x0101 + kk) + nn :=
  calc (paramWord nn kk).toNat
    _ = ((2 ^ 16 * 0x0101) ^^^ (2 ^ 8 * kk)) ^^^ nn := by
      have hk' : kk * 256 < 4294967296 := by omega
      simp [paramWord, Nat.shiftLeft_eq, Nat.mod_eq_of_lt hk',
        Nat.mod_eq_of_lt (by omega : nn < 4294967296), Nat.mul_comm]
    _ = (2 ^ 8 * (2 ^ 8 * 0x0101 + kk)) ^^^ nn := by
      rw [mul_two_pow_xor_of_lt (by omega : 2 ^ 8 * kk < 2 ^ 16)]
      congr 1
      omega
    _ = 2 ^ 8 * (2 ^ 8 * 0x0101 + kk) + nn := mul_two_pow_xor_of_lt hn

/-- Settles O41: both words as numbers. -/
theorem initWordCarriesParameterWord : Obligations.InitWordCarriesParameterWord := by
  intro var nn kk hn hk
  have hv := (bitOfVariant var).isLt
  rw [encode_init_toNat hn hk, paramWord_toNat hn hk]
  omega

end Sys2Proof
end

section
/-! PROOFS. Responses (R78, R79): every word is answered once, with a code of the list. -/

namespace Sys2Proof.Machine

/-! ## What the operations leave of `ERR` and of the host's events -/

@[simp] theorem closeKeyBlock_err (s : State) : (closeKeyBlock s).err = s.err := by
  unfold closeKeyBlock; split <;> rfl

@[simp] theorem closeKeyBlock_input (s : State) : (closeKeyBlock s).input = s.input := by
  unfold closeKeyBlock; split <;> rfl

theorem absorb_err {s s' : State} {byte : Byte} (stored : absorb byte s = some s') :
    s'.err = s.err := by
  rw [(absorb_some stored).2]

theorem absorb_input {s s' : State} {byte : Byte} (stored : absorb byte s = some s') :
    s'.input = s.input := by
  rw [(absorb_some stored).2]

/-- No command takes an event from the host: the step has taken its word already. -/
theorem CommandOutcome.input_eq {i : Instr} {s t : State} (o : CommandOutcome s i t) :
    t.input = s.input := by
  cases o with
  | rejected | faulted | reset | init | final | read => rfl
  | keyb _ stored => simp [absorb_input stored]
  | datab _ _ stored => simp [absorb_input stored]
  | databFull _ _ _ stored => simp [absorb_input stored]

/-- `ERR` is written by `RESET` and by fault entry only (R211). -/
theorem CommandOutcome.err_eq {i : Instr} {s t : State} (o : CommandOutcome s i t)
    (ht : t.phase ≠ .fault) : t.err = s.err ∨ (i = .reset ∧ t.err = none) := by
  cases o with
  | reset => exact .inr ⟨rfl, rfl⟩
  | faulted => exact absurd rfl ht
  | rejected | init | final | read => exact .inl rfl
  | keyb _ stored => simp [absorb_err stored]
  | datab _ _ stored => simp [absorb_err stored]
  | databFull _ _ _ stored => simp [absorb_err stored]

/-- A command is rejected, takes a fault, or responds with code 0, with a value only if it is a read. -/
theorem CommandOutcome.answers {i : Instr} {s t : State} (o : CommandOutcome s i t) :
    (s.phase = .fault ∧ t = reject s) ∨
    (s.phase ≠ .fault ∧ ∃ f, t = raiseFault f s) ∨
    (∃ data, t.response = some ⟨0, data⟩ ∧ (data = 0 ∨
      (∃ idx, i = .rdreg idx) ∨ (∃ idx, i = .rddig idx) ∨ ∃ addr, i = .rdrom addr)) := by
  cases o with
  | rejected _ inFault => exact .inl ⟨inFault, rfl⟩
  | faulted _ notFault f => exact .inr (.inl ⟨notFault, f, rfl⟩)
  | reset | init | keyb | datab | databFull | final => exact .inr (.inr ⟨0, rfl, .inl rfl⟩)
  | read isRead value => exact .inr (.inr ⟨value, rfl, .inr isRead⟩)

/-- Settles O18: outside `FAULT` nothing is rejected, and a fault would end in `FAULT`. -/
theorem noFaultMeansOkResponse : Obligations.NoFaultMeansOkResponse := by
  intro i s t hs hx ht
  have o := exec_outcome hx
  refine ⟨?_, o.err_eq ht⟩
  obtain ⟨inFault, -⟩ | ⟨-, f, rfl⟩ | ⟨data, response, -⟩ := o.answers
  · exact absurd inFault hs
  · exact absurd rfl ht
  · exact ⟨data, response⟩

/-! ## Every word -/

/-- What a step makes of a word that waits: a command's own answer, or that of an illegal word. -/
theorem step_command_outcome {w : CmdWord} {rest : List HostEvent} {s t : State}
    (input : s.input = .command w :: rest) (h : step s = .next t) :
    (∃ i, decode w = .command i ∧ exec i { s with input := rest } = .next t) ∨
      t = illegalWord { s with input := rest } := by
  cases decodes : decode w with
  | command i =>
    rw [(stepRunsTheDeliveredCommand w rest i s).1 input decodes] at h
    exact .inl ⟨i, rfl, h⟩
  | illegal why =>
    have delivered : deliver s = .illegal { s with input := rest } := by
      simp [deliver, input, decodes]
    rw [step, delivered] at h
    cases h
    exact .inr rfl

/-- A word is answered by a rejection, a fault entry, or code 0 with a value only for a read (R78, R79). -/
theorem step_command_answers {w : CmdWord} {rest : List HostEvent} {s t : State}
    (input : s.input = .command w :: rest) (h : step s = .next t) :
    t.input = rest ∧
    ((s.phase = .fault ∧ t = reject { s with input := rest }) ∨
      (s.phase ≠ .fault ∧ ∃ f, t = raiseFault f { s with input := rest }) ∨
      (∃ data, t.response = some ⟨0, data⟩ ∧ (data = 0 ∨ (∃ idx, decode w = .command (.rdreg idx)) ∨
        (∃ idx, decode w = .command (.rddig idx)) ∨ ∃ addr, decode w = .command (.rdrom addr)))) := by
  obtain ⟨i, decodes, hx⟩ | rfl := step_command_outcome input h
  · have o := exec_outcome hx
    refine ⟨o.input_eq, ?_⟩
    simpa [decodes] using o.answers
  · obtain ⟨inFault, illegal⟩ | ⟨notFault, illegal⟩ := illegalWord_cases { s with input := rest } <;>
      rw [illegal]
    · exact ⟨rfl, .inl ⟨inFault, rfl⟩⟩
    · exact ⟨rfl, .inr (.inl ⟨notFault, _, rfl⟩)⟩

/-- Settles O19: the response of each kind of answer. -/
theorem everyCommandAnswersOnce : Obligations.EveryCommandAnswersOnce := by
  intro w rest s t input h
  obtain ⟨taken, ⟨inFault, rfl⟩ | ⟨notFault, f, rfl⟩ | ⟨data, response, value⟩⟩ :=
    step_command_answers input h
  · exact ⟨taken, _, rfl, .inr (.inl ⟨rfl, inFault, rfl⟩)⟩
  · exact ⟨taken, _, rfl, .inr (.inr ⟨f, rfl, rfl, notFault, rfl, rfl⟩)⟩
  · exact ⟨taken, _, response, .inl ⟨rfl, value⟩⟩

end Sys2Proof.Machine
end

section
/-! PROOFS. The words of the pseudo-instructions (R80, R81). -/

namespace Sys2Proof.Machine

theorem assemble_keyCommands (key : List Byte) :
    assemble (keyCommands key) = some (key.map fun b => encode (.keyb b)) := by
  rw [assemble_of_wf (keyCommands_wf key), keyCommands, List.map_map]
  rfl

theorem assemble_dataCommands (data : List Byte) :
    assemble (dataCommands data) = some (data.map fun b => encode (.datab b)) := by
  rw [assemble_of_wf (dataCommands_wf data), dataCommands, List.map_map]
  rfl

theorem assemble_digestCommands {n : Nat} (h : n ≤ 256) :
    assemble (digestCommands n) = some ((List.range n).map fun i => encode (.rddig i)) := by
  rw [assemble_of_wf (digestCommands_wf h), digestCommands, List.map_map]
  rfl

/-- The index 256 of the 257th digest byte fits no field. -/
theorem digestCommands_not_wf {n : Nat} (h : 256 < n) :
    (digestCommands n).all Instr.wf = false := by
  simp only [digestCommands, List.all_map, List.all_eq_false, List.mem_range]
  exact ⟨256, h, by decide⟩

/-- The commands of `HASH` fit their fields when the two lengths do. -/
theorem hashCommands_wf_iff {var : Variant} {nn : Nat} {key data : List Byte} :
    (hashCommands var nn key data).all Instr.wf = true ↔ nn < 256 ∧ key.length < 256 := by
  have fits : nn < 256 → (digestCommands nn).all Instr.wf = true := fun h =>
    digestCommands_wf (Nat.le_of_lt h)
  simp only [hashCommands, List.all_cons, List.all_append, keyCommands_wf, dataCommands_wf,
    Instr.wf, Bool.and_eq_true, decide_eq_true_eq, and_true, true_and]
  exact ⟨fun h => h.1, fun h => ⟨h, fits h.1⟩⟩

/-- Legal lengths fit their fields: both variants stop at 64 (R5, R155). -/
theorem lt_256_of_legalLengths {var : Variant} {nn kk : Nat} (legal : legalLengths var nn kk = true) :
    nn < 256 ∧ kk < 256 := by
  obtain ⟨-, hn, hk⟩ := legalLengths_iff.1 legal
  have := nnMax_le var
  have := kkMax_le var
  omega

/-- Settles O51: a list of commands has words exactly when each command fits. -/
theorem hashIsExpressibleExactlyWhenLengthsFit :
    Obligations.HashIsExpressibleExactlyWhenLengthsFit := by
  intro var nn key data
  refine ⟨assemble_keyCommands key, assemble_dataCommands data, fun _ => assemble_digestCommands,
    fun _ h => assemble_eq_none.2 (digestCommands_not_wf h), fun hn hk => ?_, fun tooLong => ?_⟩
  · rw [assemble_of_wf (hashCommands_wf_iff.2 ⟨hn, hk⟩)]
    simp [hashCommands, keyCommands, dataCommands, digestCommands, Function.comp_def]
  · have unfit : ¬ (nn < 256 ∧ key.length < 256) := by omega
    exact ⟨assemble_eq_none.2 (Bool.eq_false_iff.2 (mt hashCommands_wf_iff.1 unfit)),
      Bool.eq_false_iff.2 (mt lt_256_of_legalLengths unfit)⟩

end Sys2Proof.Machine
end

section
/-! SUPPORT. The mixer as a list of lines (R96): each line overwrites one word with a function of that
word and of one other, so what holds of every line holds of the mixer by induction over the list. -/

namespace Sys2Proof

/-! ## Rotation (R94) -/

theorem rotr_getLsbD {w : Nat} (a : BitVec w) {n i : Nat} (hn : n < w) (hi : i < w) :
    (rotr a n).getLsbD i = a.getLsbD ((i + n) % w) := by
  rw [rotr, BitVec.getLsbD_or, BitVec.getLsbD_ushiftRight, BitVec.getLsbD_shiftLeft]
  by_cases wraps : i + n < w
  · have low : i < w - n := by omega
    simp [Nat.mod_eq_of_lt wraps, low, Nat.add_comm n i]
  · have past : a.getLsbD (n + i) = false := BitVec.getLsbD_of_ge a (n + i) (by omega)
    have wrapped : (i + n) % w = i - (w - n) := by
      rw [Nat.mod_eq_sub_mod (by omega), Nat.mod_eq_of_lt (by omega)]
      omega
    have high : ¬ i < w - n := by omega
    simp [past, wrapped, high, hi]

/-- Bit `i` of the word stands in the rotated word at `(i + (w - n)) mod w`. -/
theorem rotr_injective {w n : Nat} (hn : n < w) :
    Function.Injective fun a : BitVec w => rotr a n := by
  intro a b same
  refine BitVec.eq_of_getLsbD_eq fun i hi => ?_
  have back : ((i + (w - n)) % w + n) % w = i := by
    rw [Nat.mod_add_mod, Nat.add_assoc, Nat.sub_add_cancel hn.le, Nat.add_mod_right,
      Nat.mod_eq_of_lt hi]
  have moved (e : BitVec w) : (rotr e n).getLsbD ((i + (w - n)) % w) = e.getLsbD i := by
    rw [rotr_getLsbD e hn (Nat.mod_lt _ (by omega)), back]
  rw [← moved a, ← moved b, show rotr a n = rotr b n from same]

theorem rotations_lt_wordBits (var : Variant) (k : Fin 4) : (rotations var)[k] < var.wordBits := by
  revert k
  cases var <;> decide

/-! ## One line of the mixer -/

/-- A line `V[target] <- op(V[target], V[source])`. -/
structure MixLine (w : Nat) where
  op : BitVec w → BitVec w → BitVec w
  target : Fin 16
  source : Fin 16

namespace MixLine

variable {w : Nat}

/-- The vector after the line. -/
def run (v : Vector (BitVec w) 16) (l : MixLine w) : Vector (BitVec w) 16 :=
  v.set l.target (l.op v[l.target] v[l.source])

/-- `V[p] <- V[p] + V[q] + x`. -/
def addBoth (p q : Fin 16) (x : BitVec w) : MixLine w := ⟨(· + · + x), p, q⟩

/-- `V[p] <- V[p] + V[q]`. -/
def add (p q : Fin 16) : MixLine w := ⟨(· + ·), p, q⟩

/-- `V[p] <- rotr(V[p] ^ V[q], n)`. -/
def xorRotr (p q : Fin 16) (n : Nat) : MixLine w := ⟨fun e f => rotr (e ^^^ f) n, p, q⟩

theorem run_get (v : Vector (BitVec w) 16) (l : MixLine w) (i : Fin 16) :
    (run v l)[i] = if i = l.target then l.op v[l.target] v[l.source] else v[i] := by
  simp only [run, Fin.getElem_fin, Vector.getElem_set, Fin.ext_iff, eq_comm]

theorem run_get_target (v : Vector (BitVec w) 16) (l : MixLine w) :
    (run v l)[l.target] = l.op v[l.target] v[l.source] := by
  rw [run_get, if_pos rfl]

theorem run_get_of_ne (v : Vector (BitVec w) 16) {l : MixLine w} {i : Fin 16} (h : i ≠ l.target) :
    (run v l)[i] = v[i] := by
  rw [run_get, if_neg h]

theorem run_get_congr {u v : Vector (BitVec w) 16} {l : MixLine w} {i : Fin 16}
    (target : u[l.target] = v[l.target]) (source : u[l.source] = v[l.source]) (here : u[i] = v[i]) :
    (run u l)[i] = (run v l)[i] := by
  rw [run_get, run_get, target, source, here]

/-- A line loses nothing when the word it reads beside its target is kept and `op` can be undone. -/
structure Undoable (l : MixLine w) : Prop where
  keepsSource : l.source ≠ l.target
  injective : ∀ f, Function.Injective fun e => l.op e f

theorem Undoable.run_injective {l : MixLine w} (h : l.Undoable) :
    Function.Injective fun v => run v l := by
  intro u v same
  have word (i : Fin 16) : (run u l)[i] = (run v l)[i] := congrArg (·[i]) same
  have source : u[l.source] = v[l.source] := by
    simpa only [run_get_of_ne _ h.keepsSource] using word l.source
  have target : u[l.target] = v[l.target] := by
    refine h.injective v[l.source] ?_
    simpa only [run_get_target, source] using word l.target
  have all (i : Fin 16) : u[i] = v[i] := by
    by_cases here : i = l.target
    · rw [here, target]
    · simpa only [run_get_of_ne _ here] using word i
  exact Vector.ext fun i hi => all ⟨i, hi⟩

theorem addBoth_undoable {p q : Fin 16} (h : q ≠ p) (x : BitVec w) : (addBoth p q x).Undoable :=
  ⟨h, fun f => (add_left_injective x).comp (add_left_injective f)⟩

theorem add_undoable {p q : Fin 16} (h : q ≠ p) : (add p q : MixLine w).Undoable :=
  ⟨h, fun f => add_left_injective f⟩

theorem xorRotr_undoable {p q : Fin 16} (h : q ≠ p) {n : Nat} (hn : n < w) :
    (xorRotr p q n : MixLine w).Undoable :=
  ⟨h, fun f => (rotr_injective hn).comp fun _ _ => (BitVec.xor_left_inj f).1⟩

/-! ## A list of lines -/

theorem foldl_run_get_of_ne {ls : List (MixLine w)} {i : Fin 16} (h : ∀ l ∈ ls, i ≠ l.target)
    (v : Vector (BitVec w) 16) : (ls.foldl run v)[i] = v[i] := by
  induction ls generalizing v with
  | nil => rfl
  | cons l ls ih =>
    obtain ⟨head, tail⟩ := List.forall_mem_cons.1 h
    rw [List.foldl_cons, ih tail, run_get_of_ne v head]

/-- Lines that read and write words of `ps` only make equal words of `ps` from equal words of `ps`. -/
theorem foldl_run_get_congr {ls : List (MixLine w)} {ps : List (Fin 16)}
    (inside : ∀ l ∈ ls, l.target ∈ ps ∧ l.source ∈ ps) {u v : Vector (BitVec w) 16}
    (same : ∀ i ∈ ps, u[i] = v[i]) : ∀ i ∈ ps, (ls.foldl run u)[i] = (ls.foldl run v)[i] := by
  induction ls generalizing u v with
  | nil => exact same
  | cons l ls ih =>
    obtain ⟨⟨target, source⟩, tail⟩ := List.forall_mem_cons.1 inside
    exact ih tail fun i hi => run_get_congr (same _ target) (same _ source) (same i hi)

theorem foldl_run_injective {ls : List (MixLine w)} (h : ∀ l ∈ ls, l.Undoable) :
    Function.Injective fun v => ls.foldl run v := by
  induction ls with
  | nil => exact Function.injective_id
  | cons l ls ih =>
    obtain ⟨head, tail⟩ := List.forall_mem_cons.1 h
    exact (ih tail).comp head.run_injective

end MixLine

/-! ## The eight lines -/

/-- The lines of R96 in order. -/
def mixLines {w : Nat} (rot : Vector Nat 4) (a b c d : Fin 16) (x y : BitVec w) : List (MixLine w) :=
  [.addBoth a b x, .xorRotr d a rot[0], .add c d, .xorRotr b c rot[1],
   .addBoth a b y, .xorRotr d a rot[2], .add c d, .xorRotr b c rot[3]]

theorem mixG_eq_foldl_run {w : Nat} (rot : Vector Nat 4) (v : Vector (BitVec w) 16)
    (a b c d : Fin 16) (x y : BitVec w) :
    mixG rot v a b c d x y = (mixLines rot a b c d x y).foldl MixLine.run v := rfl

theorem mixLines_positions {w : Nat} (rot : Vector Nat 4) (a b c d : Fin 16) (x y : BitVec w) :
    ∀ l ∈ mixLines rot a b c d x y, l.target ∈ [a, b, c, d] ∧ l.source ∈ [a, b, c, d] := by
  simp [mixLines, MixLine.addBoth, MixLine.add, MixLine.xorRotr]

/-- At different positions every line of a variant's mixer can be undone (R101). -/
theorem mixLines_undoable (var : Variant) {a b c d : Fin 16} (x y : BitVec var.wordBits)
    (different : [a, b, c, d].Nodup) :
    ∀ l ∈ mixLines (rotations var) a b c d x y, l.Undoable := by
  obtain ⟨⟨hab, hac, had⟩, ⟨hbc, hbd⟩, hcd⟩ :
      (a ≠ b ∧ a ≠ c ∧ a ≠ d) ∧ (b ≠ c ∧ b ≠ d) ∧ c ≠ d := by simpa using different
  have amount := rotations_lt_wordBits var
  simp only [mixLines, List.forall_mem_cons]
  exact ⟨MixLine.addBoth_undoable hab.symm x, MixLine.xorRotr_undoable had (amount 0),
    MixLine.add_undoable hcd.symm, MixLine.xorRotr_undoable hbc.symm (amount 1),
    MixLine.addBoth_undoable hab.symm y, MixLine.xorRotr_undoable had (amount 2),
    MixLine.add_undoable hcd.symm, MixLine.xorRotr_undoable hbc.symm (amount 3),
    List.forall_mem_nil _⟩

end Sys2Proof
end

section
/-! PROOFS. Rotation (R94) and the mixer (R98, R101). -/

namespace Sys2Proof

/-- Settles O42, splitting on whether `i + n` wraps past the word's width. -/
theorem rotationMovesBits : Obligations.RotationMovesBits := fun _ a _ _ _ hn hi =>
  rotr_getLsbD a hn hi

/-- Settles O43, by induction over the mixer's lines, which name no other position. -/
theorem mixerReadsAndWritesItsFourWords : Obligations.MixerReadsAndWritesItsFourWords := by
  intro w rot u v a b c d x y
  have inside := mixLines_positions rot a b c d x y
  simp only [mixG_eq_foldl_run]
  refine ⟨fun i ha hb hc hd => MixLine.foldl_run_get_of_ne (fun l hl => ?_) v,
    fun ha hb hc hd i hi => MixLine.foldl_run_get_congr inside ?_ i (by simpa using hi)⟩
  · have outside : i ∉ [a, b, c, d] := by simp [ha, hb, hc, hd]
    exact fun eq => outside (eq ▸ (inside l hl).1)
  · simpa using ⟨ha, hb, hc, hd⟩

/-- Settles O44: each of the eight lines is injective, hence so is their composition. -/
theorem mixerIsInjective : Obligations.MixerIsInjective := by
  intro var u v a b c d x y different same
  rw [mixG_eq_foldl_run, mixG_eq_foldl_run] at same
  exact MixLine.foldl_run_injective (mixLines_undoable var x y different) same

end Sys2Proof
end

section
/-! SUPPORT. The ROM's address map, item by item (R117), and `RDROM` on both kinds of address (R118). -/

namespace Sys2Proof

theorem rom_ivB (i : Fin 8) : rom i.val = some ivB[i] := by
  revert i; decide

theorem rom_ivS (i : Fin 8) : rom (0x008 + i.val) = some (BitVec.ofNat 64 ivS[i].toNat) := by
  revert i; decide

theorem rom_rotationsB (i : Fin 4) :
    rom (0x010 + i.val) = some (BitVec.ofNat 64 (rotations .B)[i]) := by
  revert i; decide

theorem rom_rotationsS (i : Fin 4) :
    rom (0x014 + i.val) = some (BitVec.ofNat 64 (rotations .S)[i]) := by
  revert i; decide

/-- The SIGMA region by row and column: row `r` is the sixteen addresses from `0x100 + 16 * r`. -/
theorem rom_sigma (r : Fin 12) (i : Fin 16) :
    rom (0x100 + 16 * r.val + i.val) = some (BitVec.ofNat 64 sigma[r][i].val) := by
  have row : (0x100 + 16 * r.val + i.val - 0x100) / 16 = r.val := by omega
  have column : (0x100 + 16 * r.val + i.val - 0x100) % 16 = i.val := by omega
  rw [rom, dif_neg (by omega), dif_neg (by omega), dif_neg (by omega), dif_neg (by omega),
    if_neg (by omega), dif_pos (by omega)]
  simp [row, column]

end Sys2Proof

namespace Sys2Proof.Machine

variable {s : State} {addr : Nat}

theorem exec_rdrom_assigned (hf : s.phase ≠ .fault) {x : Word} (item : rom addr = some x) :
    exec (.rdrom addr) s = .next (answered 0 x s) := by
  simp only [exec, execRdrom, unlessFaulted_run hf, item]
  rfl

theorem exec_rdrom_unassigned (hf : s.phase ≠ .fault) (hole : rom addr = none) :
    exec (.rdrom addr) s = .next (faulted .operandRange s) := by
  simp only [exec, execRdrom, unlessFaulted_run hf, hole]
  rfl

end Sys2Proof.Machine
end

section
/-! PROOFS. `RDROM` (41_constant_rom.md). -/

namespace Sys2Proof.Machine

/-- Settles O8, one clause for each region of the address map and one for the two holes. -/
theorem rdromCommandFollowsItsRule : Obligations.RdromCommandFollowsItsRule := by
  refine fun s => ⟨fun _ fits => encode_rdrom_toNat fits,
    fun _ inFault => unlessFaulted_fault inFault _, fun hf => ⟨?_, ?_, ?_, ?_, ?_, ?_⟩⟩
  · exact fun i => exec_rdrom_assigned hf (rom_ivB i)
  · exact fun i => exec_rdrom_assigned hf (rom_ivS i)
  · exact fun i => exec_rdrom_assigned hf (rom_rotationsB i)
  · exact fun i => exec_rdrom_assigned hf (rom_rotationsS i)
  · exact fun r i => exec_rdrom_assigned hf (rom_sigma r i)
  · intro addr hole
    have inSpace : addr < 512 := by omega
    exact exec_rdrom_unassigned hf ((rom_eq_none inSpace).2 hole)

end Sys2Proof.Machine
end

section
/-! SUPPORT. Steps 1 and 2 of the Compressor word by word (R132, R133). -/

namespace Sys2Proof

section

variable (var : Variant) (h : Vector (BitVec var.wordBits) 8) (t : Nat) (final : Bool)

theorem startVector_low :
    (startVector var h t final)[12] = (iv var)[4] ^^^ BitVec.ofNat _ (t % 2 ^ var.wordBits) := rfl

theorem startVector_high :
    (startVector var h t final)[13] = (iv var)[5] ^^^ BitVec.ofNat _ (t / 2 ^ var.wordBits) := rfl

theorem startVector_flag_clear : (startVector var h t false)[14] = (iv var)[6] := rfl

theorem startVector_flag_set : (startVector var h t true)[14] = ~~~(iv var)[6] :=
  BitVec.xor_allOnes

theorem startVector_low_xor_iv_toNat :
    ((startVector var h t final)[12] ^^^ (iv var)[4]).toNat = t % 2 ^ var.wordBits := by
  rw [startVector_low, BitVec.xor_comm (iv var)[4], BitVec.xor_assoc, BitVec.xor_self,
    BitVec.xor_zero, BitVec.toNat_ofNat, Nat.mod_mod]

/-- The high half of a counter below `2^TW` is one word. -/
theorem startVector_high_xor_iv_toNat (ht : t < 2 ^ var.counterBits) :
    ((startVector var h t final)[13] ^^^ (iv var)[5]).toNat = t / 2 ^ var.wordBits := by
  have oneWord : t / 2 ^ var.wordBits < 2 ^ var.wordBits := by
    rw [Nat.div_lt_iff_lt_mul (Nat.two_pow_pos _), ← Nat.pow_add, ← Nat.two_mul]
    exact ht
  rw [startVector_high, BitVec.xor_comm (iv var)[5], BitVec.xor_assoc, BitVec.xor_self,
    BitVec.xor_zero, BitVec.toNat_ofNat, Nat.mod_eq_of_lt oneWord]

/-- With counter 0 and no flag the second half is the IV (R140). -/
theorem startVector_second_half (i : Fin 8) :
    (startVector var h 0 false)[8 + i.val] = (iv var)[i] := by
  have low : (startVector var h 0 false)[12] = (iv var)[4] := by simp [startVector_low]
  have high : (startVector var h 0 false)[13] = (iv var)[5] := by simp [startVector_high]
  match i with
  | 4 => exact low
  | 5 => exact high
  | 0 | 1 | 2 | 3 | 6 | 7 => rfl

end

variable {var : Variant} (h : Vector (BitVec var.wordBits) 8)

/-- Words 12 and 13 determine a counter below `2^TW`. -/
theorem counter_eq_of_startVector_eq {t t' : Nat} {f f' : Bool} (ht : t < 2 ^ var.counterBits)
    (ht' : t' < 2 ^ var.counterBits)
    (low : (startVector var h t f)[12] = (startVector var h t' f')[12])
    (high : (startVector var h t f)[13] = (startVector var h t' f')[13]) : t = t' := by
  have lowHalf : t % 2 ^ var.wordBits = t' % 2 ^ var.wordBits := by
    rw [← startVector_low_xor_iv_toNat var h t f, low, startVector_low_xor_iv_toNat]
  have highHalf : t / 2 ^ var.wordBits = t' / 2 ^ var.wordBits := by
    rw [← startVector_high_xor_iv_toNat var h t f ht, high,
      startVector_high_xor_iv_toNat _ _ _ _ ht']
  rw [← Nat.div_add_mod t (2 ^ var.wordBits), lowHalf, highHalf, Nat.div_add_mod]

theorem startVector_get_of_ne (t t' : Nat) (f f' : Bool) {i : Fin 16} (notLow : i ≠ 12)
    (notHigh : i ≠ 13) (notFlag : i ≠ 14) :
    (startVector var h t f)[i] = (startVector var h t' f')[i] := by
  fin_cases i
  any_goals rfl
  · exact absurd rfl notLow
  · exact absurd rfl notHigh
  · exact absurd rfl notFlag

end Sys2Proof
end

section
/-! SUPPORT. The mixer calls of a half round work on disjoint words of `V` (R139). -/

namespace Sys2Proof

/-- The positions of a group as a list. -/
def MixGroup.positions (p : MixGroup) : List (Fin 16) := [p.a, p.b, p.c, p.d]

/-- The groups of the columns are pairwise disjoint, and so are those of the diagonals (R136). -/
theorem mixGroups_disjoint : ∀ g g' : Fin 8, g.val / 4 = g'.val / 4 → g ≠ g' →
    ∀ i ∈ mixGroups[g].positions, i ∉ mixGroups[g'].positions := by decide

variable {var : Variant} {m : Vector (BitVec var.wordBits) 16} {r : Fin 12} {g : Fin 8}

theorem mixCall_get_of_not_mem {i : Fin 16} (outside : i ∉ mixGroups[g].positions)
    (v : Vector (BitVec var.wordBits) 16) : (mixCall var m r g v)[i] = v[i] := by
  rw [mixCall, mixG_eq_foldl_run]
  exact MixLine.foldl_run_get_of_ne (fun l hl =>
    (ne_of_mem_of_not_mem (mixLines_positions _ _ _ _ _ _ _ l hl).1 outside).symm) v

theorem mixCall_get_congr {u v : Vector (BitVec var.wordBits) 16}
    (same : ∀ i ∈ mixGroups[g].positions, u[i] = v[i]) :
    ∀ i ∈ mixGroups[g].positions, (mixCall var m r g u)[i] = (mixCall var m r g v)[i] := by
  simp only [mixCall, mixG_eq_foldl_run]
  exact MixLine.foldl_run_get_congr (mixLines_positions _ _ _ _ _ _ _) same

/-- What a call writes is the same before and after a call on other words. -/
theorem mixCall_mixCall_get {g' : Fin 8}
    (apart : ∀ i ∈ mixGroups[g].positions, i ∉ mixGroups[g'].positions)
    (v : Vector (BitVec var.wordBits) 16) {i : Fin 16} (here : i ∈ mixGroups[g].positions) :
    (mixCall var m r g (mixCall var m r g' v))[i] =
      (mixCall var m r g' (mixCall var m r g v))[i] := by
  rw [mixCall_get_of_not_mem (apart i here)]
  exact mixCall_get_congr (fun j hj => mixCall_get_of_not_mem (apart j hj) v) i here

theorem mixCall_comm {g' : Fin 8} (sameHalf : g.val / 4 = g'.val / 4)
    (v : Vector (BitVec var.wordBits) 16) :
    mixCall var m r g (mixCall var m r g' v) = mixCall var m r g' (mixCall var m r g v) := by
  by_cases different : g = g'
  · rw [different]
  have word (i : Fin 16) : (mixCall var m r g (mixCall var m r g' v))[i] =
      (mixCall var m r g' (mixCall var m r g v))[i] := by
    by_cases first : i ∈ mixGroups[g].positions
    · exact mixCall_mixCall_get (mixGroups_disjoint g g' sameHalf different) v first
    by_cases second : i ∈ mixGroups[g'].positions
    · exact (mixCall_mixCall_get
        (mixGroups_disjoint g' g sameHalf.symm (Ne.symm different)) v second).symm
    · simp only [mixCall_get_of_not_mem first, mixCall_get_of_not_mem second]
  exact Vector.ext fun k hk => word ⟨k, hk⟩

/-- Calls of one half round may be made in any order. -/
theorem foldl_mixCall_perm {order calls : List (Fin 8)} (perm : order.Perm calls) {half : Nat}
    (inHalf : ∀ g ∈ calls, g.val / 4 = half) (v : Vector (BitVec var.wordBits) 16) :
    order.foldl (fun v g => mixCall var m r g v) v =
      calls.foldl (fun v g => mixCall var m r g v) v :=
  perm.foldl_eq' (fun g hg g' hg' v => mixCall_comm
    ((inHalf g' (perm.mem_iff.1 hg')).trans (inHalf g (perm.mem_iff.1 hg)).symm) v) v

end Sys2Proof
end

section
/-! SUPPORT. The ticks of a compression as the calls of its rounds (R134, R135). -/

namespace Sys2Proof

/-- A sequence whose next member is `step` of the last one and of the next element of `l` ends in
the fold over `l`. -/
theorem eq_foldl_of_succ {α β : Type} {step : β → α → β} {l : List α} {x : Nat → β}
    (succ : ∀ k (hk : k < l.length), x (k + 1) = step (x k) l[k]) :
    x l.length = l.foldl step (x 0) := by
  induction l generalizing x with
  | nil => rfl
  | cons a l ih =>
    have tail := ih (x := fun k => x (k + 1)) fun k hk => succ (k + 1) (Nat.succ_lt_succ hk)
    have head : x 1 = step (x 0) a := succ 0 (Nat.succ_pos _)
    rw [List.foldl_cons, ← head]
    exact tail

theorem getElem_val_of_map_val {n k c : Nat} {l : List (Fin n)} (h : l.map Fin.val = List.range c)
    (hk : k < l.length) : l[k].val = k := by
  rw [← List.getElem_map Fin.val (h := by rwa [List.length_map])]
  simp only [h, List.getElem_range]

theorem mixOrder_getElem_val {k : Nat} (hk : k < mixOrder.length) : mixOrder[k].val = k :=
  getElem_val_of_map_val (c := 8) rfl hk

theorem roundIndices_getElem_val {var : Variant} {k : Nat} (hk : k < var.roundIndices.length) :
    var.roundIndices[k].val = k :=
  getElem_val_of_map_val (roundIndices_eq_range var) hk

end Sys2Proof

namespace Sys2Proof.Machine

section

variable {var : Variant} {q : Sequencer} {r : Fin 12} (g : Fin 8)
variable (hr : q.r = 0) (hg : q.g = 0) (inRounds : r.val < var.rounds)
include hr hg inRounds

theorem ticks_counters :
    (ticks var (8 * r.val + g.val) q).r.toNat = r.val ∧
      (ticks var (8 * r.val + g.val) q).g.toNat = g.val := by
  have inCompression : 8 * r.val + g.val < 8 * var.rounds := by omega
  obtain ⟨-, position⟩ := ticks_position_of_start hr hg inCompression
  have small := (ticks var (8 * r.val + g.val) q).g.isLt
  unfold Sequencer.position at position
  omega

theorem tick_after_ticks_v :
    (tick var (ticks var (8 * r.val + g.val) q)).v =
      store16 var (mixCall var (load16 var q.m) r g
        (load16 var (ticks var (8 * r.val + g.val) q).v)) := by
  obtain ⟨round, call⟩ := ticks_counters g hr hg inRounds
  rw [tick_running var _ r g inRounds (BitVec.eq_of_toNat_eq (by simp [round]; omega))
    (BitVec.eq_of_toNat_eq (by simp [call])), ticks_m]

theorem load16_ticks_succ :
    load16 var (ticks var (8 * r.val + g.val + 1) q).v =
      mixCall var (load16 var q.m) r g (load16 var (ticks var (8 * r.val + g.val) q).v) := by
  rw [ticks_add, ← load16_store16 var (mixCall _ _ _ _ _)]
  exact congrArg (load16 var) (tick_after_ticks_v g hr hg inRounds)

/-- Eight ticks make one round (R134). -/
theorem load16_ticks_round :
    load16 var (ticks var (8 * (r.val + 1)) q).v =
      mixRound var (load16 var q.m) r (load16 var (ticks var (8 * r.val) q).v) :=
  eq_foldl_of_succ (l := mixOrder) (x := fun k => load16 var (ticks var (8 * r.val + k) q).v)
    fun k hk => by
      have call := load16_ticks_succ mixOrder[k] hr hg inRounds
      rwa [mixOrder_getElem_val hk] at call

end

/-- The ticks of a compression make all rounds in order (R135). -/
theorem load16_ticks_whole {var : Variant} {q : Sequencer} (hr : q.r = 0) (hg : q.g = 0) :
    load16 var (ticks var (8 * var.rounds) q).v =
      var.roundIndices.foldl (fun v r => mixRound var (load16 var q.m) r v) (load16 var q.v) := by
  rw [← roundIndices_length var]
  refine eq_foldl_of_succ (x := fun n => load16 var (ticks var (8 * n) q).v) fun n hn => ?_
  have index := roundIndices_getElem_val hn
  have round := load16_ticks_round (r := var.roundIndices[n]) hr hg
    (by rw [index, ← roundIndices_length var]; exact hn)
  rwa [index] at round

theorem compress_h_eq_compressF (final : Bool) (s : State) :
    (compress final s).h =
      store8 s.var (compressF s.var (load8 s.var s.h) (bufBytes s.buf 0 s.var.blockBytes)
        s.t.toNat final) := by
  rw [compress_h, load16_ticks_whole rfl rfl, compressF, ← load16_messageWords]
  simp only [startSequencer, startWorking, load16_store16]

end Sys2Proof.Machine
end

section
/-! PROOFS. The Compressor (R133, R139) and the sequencer that runs it (R135, R137). -/

namespace Sys2Proof

/-- Settles O45: calls on disjoint words commute, and a permutation is made of exchanges. -/
theorem callsOfHalfRoundCommute : Obligations.CallsOfHalfRoundCommute := fun _ _ v _ _ =>
  ⟨fun columns => foldl_mixCall_perm (half := 0) columns (by decide) v,
    fun diagonals => foldl_mixCall_perm (half := 1) diagonals (by decide) v⟩

/-- Settles O46, word by word: 12 and 13 hold the halves, 14 the flag, the others neither. -/
theorem counterAndFlagReachTheirWordsOnly : Obligations.CounterAndFlagReachTheirWordsOnly := by
  refine fun var h => ⟨fun t f ht => ⟨startVector_low_xor_iv_toNat var h t f,
      startVector_high_xor_iv_toNat var h t f ht⟩,
    fun t t' f f' => counter_eq_of_startVector_eq h, startVector_second_half var h, ?_,
    fun t t' f f' => ⟨fun i => startVector_get_of_ne h t t' f f', rfl, rfl, rfl, ?_⟩⟩
  · rintro rfl f
    refine ⟨rfl, fun same => ?_⟩
    rw [startVector_high, startVector_high, BitVec.xor_right_inj] at same
    exact absurd same (by decide)
  · rw [startVector_flag_set, startVector_flag_clear]

end Sys2Proof

namespace Sys2Proof.Machine

/-- Settles O47: the counters number the calls, and a tick makes the call they name. -/
theorem sequencerMakesTheCallsInOrder : Obligations.SequencerMakesTheCallsInOrder := by
  refine fun var q hr hg => ⟨fun r g inRounds => ?_, ticks_whole var q hr hg⟩
  obtain ⟨round, call⟩ := ticks_counters g hr hg inRounds
  exact ⟨round, call, tick_after_ticks_v g hr hg inRounds, by rw [tick_m, ticks_m]⟩

/-- Settles O49, by induction over the calls of a round and over the rounds (`eq_foldl_of_succ`):
one tick is one call, since what is stored is loaded again. -/
theorem sequencerComputesF : Obligations.SequencerComputesF := fun final s => by
  rw [← compress_h_eq_compressF, compress_h]
  exact compress_eq final s

end Sys2Proof.Machine
end

section
/-! SUPPORT. What the phase says to a command (R151): the answers of a command that is rejected or out of
sequence, and everything a permitted one can answer. -/

namespace Sys2Proof.Machine

/-- The phases outside `FAULT` that permit a command: the rows of R151. -/
def phasesOf : Instr → List Phase
  | .init .. => [.idle, .done]
  | .keyb _ => [.key]
  | .datab _ => [.data]
  | .final => [.data]
  | .rddig _ => [.done]
  | .reset | .rdreg _ | .rdrom _ => [.idle, .key, .data, .done]

theorem fault_of_rejected {i : Instr} {p : Phase} (h : permission i p = .rejected) : p = .fault := by
  cases i <;> cases p <;> simp_all [permission]

theorem permission_eq_sequence_iff {i : Instr} {p : Phase} :
    permission i p = .sequence ↔ p ≠ .fault ∧ p ∉ phasesOf i := by
  cases i <;> cases p <;> simp [permission, phasesOf]
  split <;> simp

/-- Outside `FAULT` a command is allowed exactly in the phases of its row. -/
theorem permission_eq_allowed_iff {i : Instr} {p : Phase} (hf : p ≠ .fault) :
    permission i p = .allowed ↔ p ∈ phasesOf i := by
  cases i <;> cases p <;> simp_all [permission, phasesOf]

theorem mem_phasesOf_of_allowed {i : Instr} {s : State} (h : permission i s.phase = .allowed)
    (hf : s.phase ≠ .fault) : s.phase ∈ phasesOf i := (permission_eq_allowed_iff hf).1 h

/-- A rejected command changes nothing but the response (R198). -/
theorem exec_rejected {i : Instr} {s : State} (h : permission i s.phase = .rejected) :
    exec i s = .next (answered 15 0 s) := by
  have inFault := fault_of_rejected h
  cases i with
  | reset => simp [permission] at h
  | init | keyb | datab | final | rddig => exact permittedIn_fault inFault _ _
  | rdrom => exact unlessFaulted_fault inFault _
  | rdreg idx =>
    have unnamed : regOf idx = none := regOf_eq_none.2 (by simpa [permission, inFault] using h)
    simp only [exec, execRdreg, unnamed]
    exact unlessFaulted_fault inFault _

/-- A command out of sequence takes `SequenceError` (R192). -/
theorem exec_sequence {i : Instr} {s : State} (h : permission i s.phase = .sequence) :
    exec i s = .next (faulted .sequenceError s) := by
  obtain ⟨hf, outside⟩ := permission_eq_sequence_iff.1 h
  cases i with
  | init | keyb | datab | final | rddig => exact permittedIn_sequence outside hf _
  | reset | rdreg | rdrom => cases p : s.phase <;> simp [phasesOf, p] at outside hf

end Sys2Proof.Machine
end

section
/-! SUPPORT. The commands of the block iterator where they are permitted, one equation for each case of the
rule (R155, R160, R164, R167). -/

namespace Sys2Proof.Machine

variable {s s' : State} {byte : Byte}

theorem exec_init_invalid {var : Variant} {nn kk : Nat}
    (permitted : s.phase = .idle ∨ s.phase = .done) (illegal : legalLengths var nn kk = false) :
    exec (.init var nn kk) s = .next (raiseFault .invalidParameter s) := by
  rw [exec, execInit, permittedIn_allowed (by simpa using permitted)
    (notFault_of_idle_or_done permitted), illegal]
  rfl

theorem exec_keyb (inKey : s.phase = .key) (stored : absorb byte s = some s') :
    exec (.keyb byte) s = .next (respond rcOk 0 (closeKeyBlock s')) := by
  rw [exec, execKeyb, permittedIn_allowed (by simp [inKey]) (by simp [inKey]), stored]

theorem absorbData_eq (stored : absorb byte s = some s') :
    absorbData byte s = .next (respond rcOk 0 s') := by rw [absorbData, stored]

theorem exec_datab_room (inData : s.phase = .data) (room : s.c.toNat ≠ s.var.blockBytes)
    (stored : absorb byte s = some s') : exec (.datab byte) s = .next (respond rcOk 0 s') := by
  rw [exec, execDatab, permittedIn_allowed (by simp [inData]) (by simp [inData]), if_neg room,
    absorbData_eq stored]

theorem exec_datab_full (inData : s.phase = .data) (full : s.c.toNat = s.var.blockBytes)
    (fits : counterWouldOverflow s.var.blockBytes s = false)
    (stored : absorb byte (compressEvent false s.var.blockBytes s) = some s') :
    exec (.datab byte) s = .next (respond rcOk 0 s') := by
  rw [exec, execDatab, permittedIn_allowed (by simp [inData]) (by simp [inData]), if_pos full,
    if_neg (by simp [fits]), absorbData_eq stored]

theorem exec_datab_overflow (inData : s.phase = .data) (full : s.c.toNat = s.var.blockBytes)
    (overflows : counterWouldOverflow s.var.blockBytes s = true) :
    exec (.datab byte) s = .next (raiseFault .lengthOverflow s) := by
  rw [exec, execDatab, permittedIn_allowed (by simp [inData]) (by simp [inData]), if_pos full,
    if_pos overflows]

theorem exec_final (inData : s.phase = .data) (fits : counterWouldOverflow s.c.toNat s = false) :
    exec .final s =
      .next (respond rcOk 0 { compressEvent true s.c.toNat s with phase := .done }) := by
  rw [exec, execFinal, permittedIn_allowed (by simp [inData]) (by simp [inData]),
    if_neg (by simp [fits])]

theorem exec_final_overflow (inData : s.phase = .data)
    (overflows : counterWouldOverflow s.c.toNat s = true) :
    exec .final s = .next (raiseFault .lengthOverflow s) := by
  rw [exec, execFinal, permittedIn_allowed (by simp [inData]) (by simp [inData]), if_pos overflows]

theorem counterWouldOverflow_eq_true {n : Nat} :
    counterWouldOverflow n s = true ↔ 2 ^ s.var.counterBits ≤ s.t.toNat + n := by
  simp [counterWouldOverflow]

/-- A compression event that does not overflow, with the pure function `F` and the counter as a number
(R137, R164, R167). -/
theorem compressEvent_eq {n : Nat} (final : Bool) (fits : counterWouldOverflow n s = false) :
    compressEvent final n s =
      { s with
        t := BitVec.ofNat 128 (s.t.toNat + n)
        h := store8 s.var (compressF s.var (load8 s.var s.h) (bufBytes s.buf 0 s.var.blockBytes)
          (s.t.toNat + n) final)
        buf := []
        c := 0
        work := none
        r := 0
        g := 0 } := by
  have advanced : s.t + BitVec.ofNat 128 n = BitVec.ofNat 128 (s.t.toNat + n) := by
    rw [BitVec.ofNat_add, BitVec.ofNat_toNat, BitVec.setWidth_eq]
  rw [compressEvent, sequencerComputesF]
  simp only [t_add_toNat fits]
  rw [advanced]

/-- The key block's length as a value of `C` (R161). -/
theorem ofNat_blockBytes (var : Variant) :
    BitVec.ofNat 8 var.blockBytes = match var with | .B => 128 | .S => 64 := by
  cases var <;> rfl

theorem c_succ (s : State) : s.c + 1 = BitVec.ofNat 8 (s.c.toNat + 1) := by
  rw [BitVec.ofNat_add, BitVec.ofNat_toNat, BitVec.setWidth_eq]
  rfl

/-! ## The state of `H` after `INIT` (R156) -/

theorem store8_set (var : Variant) (h : Vector (BitVec var.wordBits) 8) (i : Fin 8)
    (x : BitVec var.wordBits) : store8 var (h.set i x) = (store8 var h).set i (store var x) := by
  ext k hk
  simp only [store8, vec8_getElem, Fin.getElem_fin, Vector.getElem_set, apply_ite (store var)]

/-- A 32-bit word reaches storage alike by way of a `W`-bit word and directly (R38). -/
theorem store_xor_setWidth (var : Variant) (x : BitVec var.wordBits) (p : BitVec 32) :
    store var (x ^^^ p.setWidth var.wordBits) = store var x ^^^ p.setWidth 64 := by
  have direct : (p.setWidth var.wordBits).setWidth 64 = p.setWidth 64 := by
    cases var
    · exact BitVec.setWidth_eq (p.setWidth 64)
    · exact congrArg (BitVec.setWidth 64) (BitVec.setWidth_eq p)
  rw [store, store, BitVec.setWidth_xor, direct]

theorem store8_initHash (var : Variant) (nn kk : Nat) :
    store8 var (initHash var nn kk) =
      (store8 var (iv var)).set 0 ((store8 var (iv var))[0] ^^^ (paramWord nn kk).setWidth 64) := by
  have first : (store8 var (iv var))[0] = store var (iv var)[0] := vec8_getElem _ 0 (by decide)
  rw [first, ← store_xor_setWidth]
  exact store8_set var _ 0 _

end Sys2Proof.Machine
end

section
/-! PROOFS. The commands of the block iterator, each by its whole rule (R153, R155, R160, R164, R167). -/

namespace Sys2Proof.Machine

/-- Settles O1: `RESET` writes every register and asks for no phase. -/
theorem resetCommandGivesResetState : Obligations.ResetCommandGivesResetState :=
  ⟨by decide, fun _ => rfl⟩

/-- Settles O2: the word, and one clause for each answer of the phase and length checks. -/
theorem initCommandFollowsItsRule : Obligations.InitCommandFollowsItsRule := by
  intro var nn kk s most
  have bound : most = var.nnMax ∧ most = var.kkMax := by cases var <;> exact ⟨rfl, rfl⟩
  have legal_iff : legalLengths var nn kk = true ↔ 1 ≤ nn ∧ nn ≤ most ∧ kk ≤ most := by
    rw [legalLengths_iff, ← bound.1, ← bound.2]
  refine ⟨fun hn hk => ?_, fun inFault => permittedIn_fault inFault _ _, fun inside => ?_,
    fun permitted invalid => ?_, fun permitted h1 hn hk => ?_⟩
  · rw [encode_init_toNat hn hk]
    cases var <;> rfl
  · exact exec_sequence (permission_eq_sequence_iff.2 (by
      rcases inside with p | p <;> simp [p, phasesOf]))
  · exact exec_init_invalid permitted (Bool.eq_false_iff.2 fun legal => by
      have := legal_iff.1 legal
      omega)
  · refine (execInit_accepted permitted (legal_iff.2 ⟨h1, hn, hk⟩)).trans (congrArg _ ?_)
    rw [respond, beginInvocation, store8_initHash]
    rfl

/-- Settles O3: the absorbed byte, then the end of the key block or not. -/
theorem keybCommandFollowsItsRule : Obligations.KeybCommandFollowsItsRule := by
  intro byte s
  refine ⟨encode_keyb_toNat byte, fun inFault => permittedIn_fault inFault _ _,
    fun hf hp => permittedIn_sequence (by simpa using hp) hf _, fun inKey room more => ?_,
    fun inKey room last => ?_⟩
  all_goals rw [exec_keyb inKey (absorb_eq room byte)]
  · have stillOpen : s.c + 1 ≠ s.kk := fun e => more (by rw [← e, c_succ_toNat room])
    rw [closeKeyBlock_more stillOpen, c_succ]
    rfl
  · have closed : s.c + 1 = s.kk := BitVec.eq_of_toNat_eq (by rw [c_succ_toNat room, last])
    rw [closeKeyBlock_last closed, ofNat_blockBytes]
    rfl

/-- Settles O4: a waiting block is compressed (`compressEvent_eq`) before the byte is absorbed. -/
theorem databCommandFollowsItsRule : Obligations.DatabCommandFollowsItsRule := by
  intro byte s
  refine ⟨encode_datab_toNat byte, fun inFault => permittedIn_fault inFault _ _,
    fun hf hp => permittedIn_sequence (by simpa using hp) hf _,
    fun inData full overflows =>
      exec_datab_overflow inData full (counterWouldOverflow_eq_true.2 overflows),
    fun inData full fits => ?_, fun inData notFull room => ?_⟩
  · have fits := counterWouldOverflow_eq_false.2 fits
    rw [exec_datab_full inData full fits (absorb_eq (by simp) byte), compressEvent_eq false fits]
    rfl
  · rw [exec_datab_room inData notFull (absorb_eq room byte), c_succ]
    rfl

/-- Settles O5: the one compression with the final flag (`compressEvent_eq`), then `DONE`. -/
theorem finalCommandFollowsItsRule : Obligations.FinalCommandFollowsItsRule := by
  refine ⟨by decide, fun s => ⟨fun inFault => permittedIn_fault inFault _ _,
    fun hf hp => permittedIn_sequence (by simpa using hp) hf _,
    fun inData overflows =>
      exec_final_overflow inData (counterWouldOverflow_eq_true.2 overflows),
    fun inData fits => ?_⟩⟩
  have fits := counterWouldOverflow_eq_false.2 fits
  rw [exec_final inData fits, compressEvent_eq true fits]
  rfl

end Sys2Proof.Machine
end

section
/-! PROOFS. The tables of permissions and of phase transitions (R151, R170). -/

namespace Sys2Proof.Machine

/-- `FAULT` is in every row of the transition table but that of `RESET` and the key bytes' own. -/
theorem fault_mem_phaseAfter {i : Instr} {p : Phase} (ne : i ≠ .reset)
    (notKeying : ∀ byte, i = .keyb byte → p ≠ .key) : Phase.fault ∈ phaseAfter i p := by
  cases i <;> cases p <;> simp_all [phaseAfter]

/-- Everything a permitted command can answer: code 0 in a phase of its row, or a fault of its own other
than `SequenceError` (R151, R170, R213). -/
inductive AllowedOutcome (i : Instr) (s t : State) : Prop
  | succeeds (value : Word) (response : t.response = some ⟨0, value⟩)
      (phase : t.phase ∈ phaseAfter i s.phase)
  | faults (f : EngineFault) (may : f ∈ mayRaise i) (ne : f ≠ .sequenceError)
      (entered : t = raiseFault f s)

section

variable {s t : State}

theorem allowedOutcome_init {var : Variant} {nn kk : Nat} (permitted : s.phase ∈ [.idle, .done])
    (h : exec (.init var nn kk) s = .next t) : AllowedOutcome (.init var nn kk) s t := by
  have permitted : s.phase = .idle ∨ s.phase = .done := by simpa using permitted
  cases legal : legalLengths var nn kk with
  | true =>
    cases (execInit_accepted permitted legal).symm.trans h
    refine .succeeds 0 rfl ?_
    rcases permitted with p | p <;> simp [p, phaseAfter]
  | false =>
    cases (exec_init_invalid permitted legal).symm.trans h
    exact .faults _ (by simp [mayRaise]) (by simp) rfl

theorem allowedOutcome_keyb {byte : Byte} (inKey : s.phase = .key)
    (h : exec (.keyb byte) s = .next t) : AllowedOutcome (.keyb byte) s t := by
  rw [exec, execKeyb, permittedIn_allowed (by simp [inKey]) (by simp [inKey])] at h
  split at h <;> cases h
  next s' stored =>
    refine .succeeds 0 rfl ?_
    rcases closeKeyBlock_phase s' with p | p <;>
      simp [p, absorb_phase stored, inKey, phaseAfter]

theorem allowedOutcome_datab {byte : Byte} (inData : s.phase = .data)
    (h : exec (.datab byte) s = .next t) : AllowedOutcome (.datab byte) s t := by
  rw [exec, execDatab, permittedIn_allowed (by simp [inData]) (by simp [inData])] at h
  split_ifs at h
  · cases h
    exact .faults _ (by simp [mayRaise]) (by simp) rfl
  · obtain ⟨s', stored, rfl⟩ := absorbData_next h
    exact .succeeds 0 rfl (by simp [absorb_phase stored, inData, phaseAfter])
  · obtain ⟨s', stored, rfl⟩ := absorbData_next h
    exact .succeeds 0 rfl (by simp [absorb_phase stored, inData, phaseAfter])

theorem allowedOutcome_final (inData : s.phase = .data) (h : exec .final s = .next t) :
    AllowedOutcome .final s t := by
  rw [exec, execFinal, permittedIn_allowed (by simp [inData]) (by simp [inData])] at h
  split_ifs at h <;> cases h
  · exact .faults _ (by simp [mayRaise]) (by simp) rfl
  · exact .succeeds 0 rfl (by simp [inData, phaseAfter])

theorem allowedOutcome_rddig {idx : Nat} (inDone : s.phase = .done)
    (h : exec (.rddig idx) s = .next t) : AllowedOutcome (.rddig idx) s t := by
  rw [exec, execRddig, permittedIn_allowed (by simp [inDone]) (by simp [inDone])] at h
  split_ifs at h
  · cases h
    exact .faults _ (by simp [mayRaise]) (by simp) rfl
  · split at h <;> cases h
    exact .succeeds _ rfl (by simp [inDone, phaseAfter])

theorem allowedOutcome_rdreg {idx : Nat} (allowed : permission (.rdreg idx) s.phase = .allowed)
    (h : exec (.rdreg idx) s = .next t) : AllowedOutcome (.rdreg idx) s t := by
  rw [exec, execRdreg] at h
  split at h
  · cases h
    refine .succeeds _ rfl ?_
    cases p : s.phase <;> simp [phaseAfter, p]
  next unnamed =>
    have hf : s.phase ≠ .fault := fun inFault => by
      have := regOf_eq_none.1 unnamed
      simp [permission, inFault] at allowed
      omega
    rw [unlessFaulted_run hf] at h
    cases h
    exact .faults _ (by simp [mayRaise]) (by simp) rfl

theorem allowedOutcome_rdrom {addr : Nat} (hf : s.phase ≠ .fault)
    (h : exec (.rdrom addr) s = .next t) : AllowedOutcome (.rdrom addr) s t := by
  rw [exec, execRdrom, unlessFaulted_run hf] at h
  split at h <;> cases h
  · refine .succeeds _ rfl ?_
    cases p : s.phase <;> simp_all [phaseAfter]
  · exact .faults _ (by simp [mayRaise]) (by simp) rfl

/-- In `FAULT` only `RESET` and the register reads are allowed (R151). -/
theorem notFault_of_allowed {i : Instr} {p : Phase} (allowed : permission i p = .allowed)
    (ne : i ≠ .reset) (noRead : ∀ idx, i ≠ .rdreg idx) : p ≠ .fault := by
  rintro rfl
  cases i <;> simp_all [permission]

theorem allowedOutcome {i : Instr} (allowed : permission i s.phase = .allowed)
    (h : exec i s = .next t) : AllowedOutcome i s t := by
  have row (ne : i ≠ .reset) (noRead : ∀ idx, i ≠ .rdreg idx) : s.phase ∈ phasesOf i :=
    mem_phasesOf_of_allowed allowed (notFault_of_allowed allowed ne noRead)
  cases i with
  | reset =>
    cases h
    exact .succeeds 0 rfl (by simp [phaseAfter])
  | init => exact allowedOutcome_init (row nofun nofun) h
  | keyb => exact allowedOutcome_keyb (List.mem_singleton.1 (row nofun nofun)) h
  | datab => exact allowedOutcome_datab (List.mem_singleton.1 (row nofun nofun)) h
  | final => exact allowedOutcome_final (List.mem_singleton.1 (row nofun nofun)) h
  | rdreg => exact allowedOutcome_rdreg allowed h
  | rddig => exact allowedOutcome_rddig (List.mem_singleton.1 (row nofun nofun)) h
  | rdrom => exact allowedOutcome_rdrom (notFault_of_allowed allowed nofun nofun) h

end

theorem faultCode_ne_rejected (f : EngineFault) : faultCode f ≠ 15 := by cases f <;> decide

theorem faultCode_injective : Function.Injective faultCode := by
  intro f f' same
  cases f <;> cases f' <;> simp_all [faultCode]

/-- Settles O28: the three verdicts of the table. -/
theorem permissionTableDecides : Obligations.PermissionTableDecides := by
  refine fun i s => ⟨exec_rejected, exec_sequence, fun allowed t h => ?_⟩
  cases allowedOutcome allowed h with
  | succeeds value response => exact ⟨_, response, by simp, by simp [faultCode]⟩
  | faults f _ ne entered =>
    subst entered
    exact ⟨_, rfl, faultCode_ne_rejected f, fun same => ne (faultCode_injective same)⟩

/-- Settles O27: a rejection stays in `FAULT`, `SequenceError` enters it, a permitted command follows its
row. -/
theorem phaseFollowsTransitionTable : Obligations.PhaseFollowsTransitionTable := by
  intro i s t h
  cases verdict : permission i s.phase with
  | rejected =>
    have inFault := fault_of_rejected verdict
    cases (exec_rejected verdict).symm.trans h
    have stays : Phase.fault ∈ phaseAfter i .fault :=
      fault_mem_phaseAfter (by rintro rfl; cases verdict) (by simp)
    rwa [answered, inFault]
  | sequence =>
    cases (exec_sequence verdict).symm.trans h
    refine fault_mem_phaseAfter ?_ ?_
    · rintro rfl
      cases verdict
    · rintro byte rfl inKey
      simp [permission, inKey] at verdict
  | allowed =>
    cases allowedOutcome verdict h with
    | succeeds _ _ phase => exact phase
    | faults f may ne entered =>
      subst entered
      refine fault_mem_phaseAfter ?_ ?_
      · rintro rfl
        simp [mayRaise] at may
      · rintro byte rfl
        exact absurd (by simpa [mayRaise] using may) ne

end Sys2Proof.Machine
end

section
/-! SUPPORT. A list of commands sent in order, each after the response of the one before (R75, R225), as a
relation: runs are put together command by command and list by list. -/

namespace Sys2Proof.Machine

/-- The command has a word, and in `s` it is answered with `r` and leaves `t`. -/
structure Answers (i : Instr) (r : Response) (s t : State) : Prop where
  wf : i.wf = true
  runs : exec i s = .next t
  response : t.response = some r

/-- The commands, sent in order from `s`, are answered with the responses and leave the last state. -/
inductive Runs : List Instr → List Response → State → State → Prop
  | nil (s : State) : Runs [] [] s s
  | cons {i : Instr} {r : Response} {is : List Instr} {rs : List Response} {s t u : State}
      (head : Answers i r s t) (tail : Runs is rs t u) : Runs (i :: is) (r :: rs) s u

/-- Presenting the word of a command executes the command. -/
theorem present_encode {i : Instr} (wf : i.wf = true) (s : State) :
    present (encode i) s = exec i s :=
  (stepRunsTheDeliveredCommand (encode i) s.input i { s with input := .command (encode i) :: s.input }).1
    rfl (decodeOfEncodeIsTheCommand i wf)

/-- A run is a session with the words of its commands. -/
theorem Runs.session {is : List Instr} {rs : List Response} {s t : State} (h : Runs is rs s t) :
    session (is.map encode) s = some (rs, t) := by
  induction h with
  | nil => rfl
  | cons head tail ih =>
    rw [List.map_cons, Machine.session, present_encode head.wf, head.runs]
    simp only [head.response, ih]

theorem Runs.append {is is' : List Instr} {rs rs' : List Response} {s t u : State}
    (h : Runs is rs s t) (h' : Runs is' rs' t u) : Runs (is ++ is') (rs ++ rs') s u := by
  induction h with
  | nil => exact h'
  | cons head _ ih => exact .cons head (ih h')

/-- One command for each element of a list: an invariant of the elements done so far, kept by every
command, holds of the whole list at the end. -/
theorem Runs.of_invariant {α : Type} {command : α → Instr} {answer : α → Response}
    {P : List α → State → Prop} {all : List α}
    (next : ∀ done a rest s, done ++ a :: rest = all → P done s →
      ∃ t, Answers (command a) (answer a) s t ∧ P (done ++ [a]) t)
    {done rest : List α} {s : State} (parts : done ++ rest = all) (start : P done s) :
    ∃ t, Runs (rest.map command) (rest.map answer) s t ∧ P all t := by
  induction rest generalizing done s with
  | nil => exact ⟨s, .nil s, by rwa [← parts, List.append_nil]⟩
  | cons a rest ih =>
    obtain ⟨t, head, kept⟩ := next done a rest s parts start
    obtain ⟨u, tail, whole⟩ := ih (by rw [List.append_assoc]; exact parts) kept
    exact ⟨u, .cons head tail, whole⟩

end Sys2Proof.Machine
end

section
/-! PROOFS. A `HASH` with invalid lengths (R173, second half). -/

namespace Sys2Proof.Machine

/-- In `FAULT` commands that may not execute there are answered with 15 throughout (R198). -/
theorem runs_rejected {is : List Instr} {s : State} (wf : is.all Instr.wf = true)
    (rejected : ∀ i ∈ is, permission i .fault = .rejected) (inFault : s.phase = .fault) :
    ∃ t, Runs is (List.replicate is.length ⟨15, 0⟩) s t ∧ t.phase = .fault ∧ t.err = s.err := by
  induction is generalizing s with
  | nil => exact ⟨s, .nil s, inFault, rfl⟩
  | cons i is ih =>
    simp only [List.all_cons, Bool.and_eq_true, List.forall_mem_cons] at wf rejected
    have head : Answers i ⟨15, 0⟩ s (answered 15 0 s) :=
      ⟨wf.1, exec_rejected (by rw [inFault]; exact rejected.1), rfl⟩
    obtain ⟨t, tail, phase, err⟩ := ih wf.2 rejected.2 (s := answered 15 0 s) inFault
    exact ⟨t, .cons head tail, phase, err⟩

/-- The commands of `HASH` after its `INIT` (R81). -/
def hashRest (nn : Nat) (key data : List Byte) : List Instr :=
  keyCommands key ++ dataCommands data ++ .final :: digestCommands nn

theorem hashCommands_eq (var : Variant) (nn : Nat) (key data : List Byte) :
    hashCommands var nn key data = .init var nn key.length :: hashRest nn key data := rfl

theorem length_hashRest (nn : Nat) (key data : List Byte) :
    (hashRest nn key data).length = key.length + data.length + 1 + nn := by
  simp only [hashRest, keyCommands, dataCommands, digestCommands, List.length_append,
    List.length_cons, List.length_map, List.length_range]
  omega

/-- None of the commands of `HASH` after `INIT` may execute in `FAULT` (R151). -/
theorem hashRest_rejected (nn : Nat) (key data : List Byte) :
    ∀ i ∈ hashRest nn key data, permission i .fault = .rejected := by
  intro i hi
  simp only [hashRest, keyCommands, dataCommands, digestCommands, List.mem_append, List.mem_cons,
    List.mem_map] at hi
  obtain (⟨_, -, rfl⟩ | ⟨_, -, rfl⟩) | rfl | ⟨_, -, rfl⟩ := hi <;> rfl

/-- Settles O53: `INIT` enters `FAULT`, where every later command of `HASH` is rejected. -/
theorem invalidHashIsRejectedThroughout : Obligations.InvalidHashIsRejectedThroughout := by
  intro var nn key data s permitted hn hk invalid
  have wf := (hashCommands_wf_iff (var := var) (data := data)).2 ⟨hn, hk⟩
  have ⟨wfInit, wfRest⟩ := Bool.and_eq_true_iff.1 (hashCommands_eq var nn key data ▸ wf)
  have init : Answers (.init var nn key.length) ⟨1, 0⟩ s (raiseFault .invalidParameter s) :=
    ⟨wfInit, exec_init_invalid permitted invalid, rfl⟩
  obtain ⟨t, rest, phase, err⟩ := runs_rejected wfRest (hashRest_rejected nn key data)
    (raiseFault_phase .invalidParameter s)
  rw [length_hashRest] at rest
  exact ⟨_, t, assemble_of_wf wf, (Runs.cons init rest).session, phase, err⟩

end Sys2Proof.Machine
end

section
/-! SUPPORT. The bytes of a digest (R53, R172). -/

namespace Sys2Proof

/-- In a list of parts of equal length element `i` stands in part `i / n` at `i % n`. -/
theorem getElem?_flatMap_of_length {α β : Type} {f : α → List β} {n : Nat} (hn : 0 < n)
    (length : ∀ a, (f a).length = n) (l : List α) (i : Nat) :
    (l.flatMap f)[i]? = l[i / n]?.bind fun a => (f a)[i % n]? := by
  induction l generalizing i with
  | nil => simp
  | cons a l ih =>
    rw [List.flatMap_cons]
    rcases Nat.lt_or_ge i n with here | later
    · rw [List.getElem?_append_left (by rwa [length]), Nat.div_eq_of_lt here, Nat.mod_eq_of_lt here]
      rfl
    · rw [List.getElem?_append_right (by rwa [length]), length, ih, Nat.div_eq_sub_div hn later,
        List.getElem?_cons_succ, Nat.mod_eq_sub_mod later]

@[simp] theorem length_leBytes {w : Nat} (n : Nat) (x : BitVec w) : (leBytes n x).length = n := by
  simp [leBytes]

@[simp] theorem length_serialize {w : Nat} (n : Nat) (h : Vector (BitVec w) 8) :
    (serialize n h).length = 8 * n := by
  simp only [serialize, List.length_flatMap, length_leBytes, List.map_const', List.sum_replicate,
    Vector.length_toList, smul_eq_mul]

/-- Byte `i` of the serialized state is byte `i mod n` of word `i div n` (R53, R182). -/
theorem serialize_getElem? {w n i : Nat} (h : Vector (BitVec w) 8) (hi : i / n < 8) (hn : 0 < n) :
    (serialize n h)[i]? = some ((h[i / n] >>> (8 * (i % n))).setWidth 8) := by
  rw [serialize, getElem?_flatMap_of_length hn (length_leBytes n)]
  simp [leBytes, hi, Nat.mod_lt _ hn]

theorem wordBytes_pos (var : Variant) : 0 < var.wordBytes := by cases var <;> decide

/-- The longest digest is all of `H` (R5). -/
theorem nnMax_eq_words (var : Variant) : var.nnMax = 8 * var.wordBytes := by cases var <;> rfl

end Sys2Proof
end

section
/-! PROOFS. The length of a digest (R174 b). -/

namespace Sys2Proof

/-- Settles O50: a valid length is at most that of all of `H`. -/
theorem hashHasRequestedLength : Obligations.HashHasRequestedLength := by
  refine fun data key var nn => ⟨fun legal => ⟨_, if_pos legal, ?_⟩, fun illegal => ?_⟩
  · obtain ⟨-, hn, -⟩ := Machine.legalLengths_iff.1 legal
    rw [List.length_take, length_serialize, ← nnMax_eq_words, Nat.min_eq_left hn]
  · rw [blake2, illegal]
    rfl

end Sys2Proof
end

section
/-! SUPPORT. The compression events of a stream, block by block (R169). -/

namespace Sys2Proof

/-- The events of the first `n` blocks of a stream, none of them the last (R165, R169). -/
def fullBlockEvents (var : Variant) (stream : List Byte) (n : Nat) : List BlockEvent :=
  (List.range n).map fun i => ⟨blockAt var stream i, (i + 1) * var.blockBytes, false⟩

theorem fullBlockEvents_succ (var : Variant) (stream : List Byte) (n : Nat) :
    fullBlockEvents var stream (n + 1) =
      fullBlockEvents var stream n ++ [⟨blockAt var stream n, (n + 1) * var.blockBytes, false⟩] := by
  simp [fullBlockEvents, List.range_succ]

theorem compressEvents_append (var : Variant) (h : Vector (BitVec var.wordBits) 8)
    (es es' : List BlockEvent) :
    compressEvents var h (es ++ es') = compressEvents var (compressEvents var h es) es' :=
  List.foldl_append

/-- A block the stream has filled stays as it is when more bytes come. -/
theorem blockAt_append {var : Variant} {stream : List Byte} {i : Nat}
    (filled : (i + 1) * var.blockBytes ≤ stream.length) (more : List Byte) :
    blockAt var (stream ++ more) i = blockAt var stream i := by
  rw [Nat.succ_mul] at filled
  have bytes : ((stream ++ more).drop (i * var.blockBytes)).take var.blockBytes =
      (stream.drop (i * var.blockBytes)).take var.blockBytes := by
    rw [List.drop_append_of_le_length (by omega), List.take_append_of_le_length]
    rw [List.length_drop]
    omega
  simp only [blockAt, bytes]

theorem fullBlockEvents_append {var : Variant} {stream : List Byte} {n : Nat}
    (filled : n * var.blockBytes ≤ stream.length) (more : List Byte) :
    fullBlockEvents var (stream ++ more) n = fullBlockEvents var stream n := by
  refine List.map_congr_left fun i hi => ?_
  have : (i + 1) * var.blockBytes ≤ n * var.blockBytes :=
    Nat.mul_le_mul_right _ (List.mem_range.1 hi)
  rw [blockAt_append (by omega)]

theorem getD_append_replicate {α : Type} (l : List α) (m i : Nat) (a : α) :
    (l ++ List.replicate m a).getD i a = l.getD i a := by
  rcases Nat.lt_or_ge i l.length with inside | beyond
  · rw [List.getD_append _ _ _ _ inside]
  · rw [List.getD_append_right _ _ _ _ beyond, List.getD_eq_default _ _ beyond]
    exact List.getElem?_getD_replicate_default_eq ..

@[simp] theorem length_blockAt (var : Variant) (stream : List Byte) (n : Nat) :
    (blockAt var stream n).length = var.blockBytes := by
  simp only [blockAt, List.length_append, List.length_replicate, List.length_take]
  omega

/-- A block holds the stream's bytes, and zeros past its end (R169). -/
theorem blockAt_getElem? {var : Variant} {i : Nat} (hi : i < var.blockBytes) (stream : List Byte)
    (n : Nat) :
    (blockAt var stream n)[i]? = some (stream.getD (n * var.blockBytes + i) 0) := by
  have bytes : ((stream.drop (n * var.blockBytes)).take var.blockBytes).getD i 0 =
      stream.getD (n * var.blockBytes + i) 0 := by
    rw [List.getD_eq_getElem?_getD, List.getElem?_take_of_lt hi, List.getElem?_drop,
      ← List.getD_eq_getElem?_getD]
  have inBlock : i < (blockAt var stream n).length := by rwa [length_blockAt]
  rw [List.getElem?_eq_getElem inBlock, ← List.getD_eq_getElem _ 0 inBlock]
  exact congrArg some ((getD_append_replicate _ _ i 0).trans bytes)

/-- Every block but the last is full, and the last is empty for the empty stream only. -/
theorem blockCount_eq {var : Variant} {length n c : Nat} (parts : n * var.blockBytes + c = length)
    (inBlock : c ≤ var.blockBytes) (nonempty : c = 0 → n = 0) : blockCount var length - 1 = n := by
  cases var <;> simp only [blockCount, Variant.blockBytes] at * <;> omega

theorem blockEvents_eq {var : Variant} {key data : List Byte} {n : Nat}
    (last : blockCount var (absorbedStream var key data).length - 1 = n) :
    blockEvents var key data = fullBlockEvents var (absorbedStream var key data) n ++
      [⟨blockAt var (absorbedStream var key data) n, (absorbedStream var key data).length, true⟩] := by
  subst last
  rfl

theorem absorbedStream_append (var : Variant) (key data more : List Byte) :
    absorbedStream var key (data ++ more) = absorbedStream var key data ++ more := by
  simp [absorbedStream]

end Sys2Proof
end

section
/-! SUPPORT. The invariant of a `HASH` in progress: which bytes of the absorbed stream the engine has
compressed and which wait in `BUF` (R169, R173). -/

namespace Sys2Proof.Machine

/-- The engine has absorbed `stream`: the first `n` blocks are in `H` and counted by `T`, the bytes after
them wait in `BUF` and are counted by `C`. -/
structure Streamed (var : Variant) (nn kk : Nat) (stream : List Byte) (n : Nat) (s : State) : Prop where
  variant : s.var = var
  digestLength : s.nn.toNat = nn
  counter : s.t.toNat = n * var.blockBytes
  waiting : n * var.blockBytes + s.c.toNat = stream.length
  inBlock : s.c.toNat ≤ var.blockBytes
  buffer : ∀ i, Memory.read s.buf i = stream.getD (n * var.blockBytes + i) 0
  bufWf : Memory.wf s.buf
  hash : s.h =
    store8 var (compressEvents var (initHash var nn kk) (fullBlockEvents var stream n))

/-- Between two commands of the data phase a block is compressed only when a byte follows it (R165). -/
structure Absorbing (var : Variant) (nn kk : Nat) (stream : List Byte) (n : Nat) (s : State) : Prop
    extends Streamed var nn kk stream n s where
  inData : s.phase = .data
  nonempty : s.c.toNat = 0 → n = 0

section

variable {var : Variant} {nn kk n : Nat} {stream : List Byte} {s : State}

theorem Streamed.after_respond (h : Streamed var nn kk stream n s) (rc : BitVec 4) (value : Word) :
    Streamed var nn kk stream n (respond rc value s) := { h with }

theorem Streamed.room (h : Streamed var nn kk stream n s) (notFull : s.c.toNat ≠ var.blockBytes) :
    s.c.toNat < 128 := by
  have := h.inBlock
  have := blockBytes_le var
  omega

/-- The waiting bytes are the next block of the stream, padded with zeros (R29, R169). -/
theorem Streamed.block_eq (h : Streamed var nn kk stream n s) :
    bufBytes s.buf 0 var.blockBytes = blockAt var stream n := by
  refine List.ext_getElem? fun i => ?_
  rcases Nat.lt_or_ge i var.blockBytes with inside | beyond
  · rw [bufBytes_get _ _ _ _ inside, blockAt_getElem? inside, Nat.zero_add, h.buffer]
  · rw [List.getElem?_eq_none (by rwa [bufBytes_length]),
      List.getElem?_eq_none (by rwa [length_blockAt])]

/-- An absorbed byte is the next of the stream. -/
theorem Streamed.after_absorb {s' : State} {byte : Byte} (h : Streamed var nn kk stream n s)
    (room : s.c.toNat < var.blockBytes) (stored : absorb byte s = some s') :
    Streamed var nn kk (stream ++ [byte]) n s' ∧ s'.c.toNat ≠ 0 := by
  obtain ⟨hc, rfl⟩ := absorb_some stored
  have hc1 := c_succ_toNat hc
  have waiting := h.waiting
  refine ⟨{ h with
    waiting := ?_
    inBlock := by simp only [hc1]; omega
    buffer := fun i => ?_
    bufWf := write_wf h.bufWf hc byte
    hash := ?_ }, by simp only [hc1]; omega⟩
  · simp only [hc1, List.length_append, List.length_singleton]
    omega
  · by_cases here : i = s.c.toNat
    · subst here
      rw [read_write_same h.bufWf, waiting, List.getD_append_right _ _ _ _ (Nat.le_refl _), Nat.sub_self]
      rfl
    · rw [read_write_other _ _ here, h.buffer]
      rcases Nat.lt_or_ge i s.c.toNat with below | above
      · rw [List.getD_append _ _ _ _ (by omega)]
      · rw [List.getD_eq_default _ _ (by omega),
          List.getD_eq_default _ _ (by rw [List.length_append, List.length_singleton]; omega)]
  · rw [fullBlockEvents_append (by omega)]
    exact h.hash

/-- A compression event adds the waiting block to the events behind `H` (R164, R167). -/
theorem Streamed.compressEvent_h {k : Nat} (h : Streamed var nn kk stream n s) (final : Bool)
    (fits : counterWouldOverflow k s = false) :
    (compressEvent final k s).h = store8 var (compressEvents var (initHash var nn kk)
      (fullBlockEvents var stream n ++ [⟨blockAt var stream n, n * var.blockBytes + k, final⟩])) := by
  obtain rfl := h.variant
  rw [compressEvent_eq final fits, compressEvents_append, ← h.block_eq, ← h.counter]
  simp only [h.hash, load8_store8]
  rfl

/-- After the compression of a full block the same stream is absorbed, one block further on. -/
theorem Streamed.after_compressEvent (h : Streamed var nn kk stream n s)
    (full : s.c.toNat = var.blockBytes) (fits : counterWouldOverflow var.blockBytes s = false) :
    Streamed var nn kk stream (n + 1) (compressEvent false var.blockBytes s) := by
  have waiting := h.waiting
  have next : (n + 1) * var.blockBytes = n * var.blockBytes + var.blockBytes := Nat.succ_mul ..
  exact
    { variant := h.variant
      digestLength := h.digestLength
      counter := by rw [compressEvent_t, t_add_toNat fits, h.counter, next]
      waiting := by rw [← waiting, full, next]; rfl
      inBlock := Nat.zero_le _
      buffer := fun i => (List.getD_eq_default _ _ (by omega)).symm
      bufWf := wf_nil
      hash := by rw [h.compressEvent_h false fits, fullBlockEvents_succ, next] }

/-- Below `2^TW` bytes the counter has room for the waiting bytes (R195). -/
theorem Streamed.fits (h : Streamed var nn kk stream n s)
    (short : stream.length < 2 ^ var.counterBits) : counterWouldOverflow s.c.toNat s = false := by
  obtain rfl := h.variant
  rw [counterWouldOverflow_eq_false, h.counter, h.waiting]
  exact short

/-- `DATAB` absorbs the next byte of the stream, after a waiting full block if there is one. -/
theorem Absorbing.datab (h : Absorbing var nn kk stream n s)
    (short : stream.length < 2 ^ var.counterBits) (byte : Byte) :
    ∃ m t, Answers (.datab byte) ⟨0, 0⟩ s t ∧ Absorbing var nn kk (stream ++ [byte]) m t := by
  have fits := h.fits short
  obtain rfl := h.variant
  have inBlock := h.inBlock
  by_cases full : s.c.toNat = s.var.blockBytes
  · rw [full] at fits
    have compressed := h.after_compressEvent full fits
    have stored := absorb_eq (s := compressEvent false s.var.blockBytes s) (by simp) byte
    obtain ⟨streamed, more⟩ := compressed.after_absorb (blockBytes_pos s.var) stored
    exact ⟨n + 1, _, ⟨rfl, exec_datab_full h.inData full fits stored, rfl⟩,
      { streamed.after_respond rcOk 0 with
        inData := h.inData
        nonempty := fun empty => absurd empty more }⟩
  · have stored := absorb_eq (h.room full) byte
    obtain ⟨streamed, more⟩ := h.after_absorb (by omega) stored
    exact ⟨n, _, ⟨rfl, exec_datab_room h.inData full stored, rfl⟩,
      { streamed.after_respond rcOk 0 with
        inData := h.inData
        nonempty := fun empty => absurd empty more }⟩

/-! ## The key block (R160, R161) -/

/-- The last key byte leaves the padded key as the first block of the stream. -/
theorem Streamed.after_closeKeyBlock {key : List Byte} (h : Streamed var nn key.length key 0 s)
    (keyed : key ≠ []) (total : s.kk.toNat = key.length) :
    Absorbing var nn key.length (absorbedStream var key []) 0 (closeKeyBlock s) := by
  have waiting := h.waiting
  have inBlock := h.inBlock
  have last : s.c = s.kk := BitVec.eq_of_toNat_eq (by omega)
  have stream : absorbedStream var key [] =
      key ++ List.replicate (var.blockBytes - key.length) 0 := by simp [absorbedStream, keyed]
  obtain rfl := h.variant
  have full := ofNat_blockBytes_toNat s.var
  rw [closeKeyBlock_last last, stream]
  exact
    { h with
      waiting := by
        rw [full, List.length_append, List.length_replicate]
        omega
      inBlock := full.le
      buffer := fun i => by rw [getD_append_replicate, h.buffer]
      inData := rfl
      nonempty := fun _ => rfl }

/-- How far the key has come: bytes are owed, or the key block is closed. -/
inductive Keying (var : Variant) (nn : Nat) (key done : List Byte) (s : State) : Prop
  | owed (streamed : Streamed var nn key.length done 0 s) (inKey : s.phase = .key)
      (total : s.kk.toNat = key.length) (more : done.length < key.length)
  | closed (whole : done = key)
      (absorbing : Absorbing var nn key.length (absorbedStream var key []) 0 s)

/-- An accepted `INIT` owes the whole key, and without one opens the data phase (R155). -/
theorem exec_init_keying {key : List Byte} (permitted : s.phase = .idle ∨ s.phase = .done)
    (legal : legalLengths var nn key.length = true) :
    ∃ t, Answers (.init var nn key.length) ⟨0, 0⟩ s t ∧ Keying var nn key [] t := by
  obtain ⟨hn, hk⟩ := lt_256_of_legalLengths legal
  refine ⟨_, ⟨by simp [Instr.wf, hn, hk], execInit_accepted permitted legal, rfl⟩, ?_⟩
  have streamed : Streamed var nn key.length [] 0
      (respond rcOk 0 (beginInvocation var nn key.length s)) :=
    { variant := rfl
      digestLength := by simp [Nat.mod_eq_of_lt hn]
      counter := by simp
      waiting := by simp
      inBlock := by simp
      buffer := by simp
      bufWf := wf_nil
      hash := rfl }
  cases key with
  | nil => exact .closed rfl { streamed with inData := rfl, nonempty := fun _ => rfl }
  | cons b bs =>
    exact .owed streamed rfl (by simpa using Nat.mod_eq_of_lt hk) (Nat.succ_pos _)

/-- `KEYB` with the next key byte. -/
theorem Keying.keyb {key done rest : List Byte} {byte : Byte} (h : Keying var nn key done s)
    (parts : done ++ byte :: rest = key) (short : key.length < var.blockBytes) :
    ∃ t, Answers (.keyb byte) ⟨0, 0⟩ s t ∧ Keying var nn key (done ++ [byte]) t := by
  cases h with
  | closed whole => simp [whole] at parts
  | owed streamed inKey total more =>
    have waiting := streamed.waiting
    have stored := absorb_eq (streamed.room (by omega)) byte
    obtain ⟨next, -⟩ := streamed.after_absorb (by omega) stored
    refine ⟨_, ⟨rfl, exec_keyb inKey stored, rfl⟩, ?_⟩
    cases rest with
    | nil =>
      have absorbing := (parts ▸ next).after_closeKeyBlock (by simp [← parts]) total
      exact .closed parts { absorbing with }
    | cons b bs =>
      have stillOpen : s.c + 1 ≠ s.kk := fun e => by
        have counted := congrArg BitVec.toNat e
        rw [c_succ_toNat (streamed.room (by omega)), total, ← parts, List.length_append,
          List.length_cons, List.length_cons] at counted
        omega
      rw [closeKeyBlock_more stillOpen]
      exact .owed { next with } inKey total (by simp [← parts])

end

end Sys2Proof.Machine
end

section
/-! SUPPORT. The end of a `HASH`: the last compression and the digest bytes (R167, R182, R184). -/

namespace Sys2Proof.Machine

/-- The digest can be read: `H` holds it. -/
structure Digested (var : Variant) (nn : Nat) (digest : Vector (BitVec var.wordBits) 8) (s : State) :
    Prop where
  variant : s.var = var
  digestLength : s.nn.toNat = nn
  inDone : s.phase = .done
  hash : s.h = store8 var digest

/-- `FINAL` compresses the last block: the events are those of the whole stream (R169). -/
theorem Absorbing.final {var : Variant} {nn kk n : Nat} {key data : List Byte} {s : State}
    (h : Absorbing var nn kk (absorbedStream var key data) n s)
    (short : (absorbedStream var key data).length < 2 ^ var.counterBits) :
    ∃ t, Answers .final ⟨0, 0⟩ s t ∧
      Digested var nn (compressEvents var (initHash var nn kk) (blockEvents var key data)) t := by
  have fits := h.fits short
  refine ⟨_, ⟨rfl, exec_final h.inData fits, rfl⟩, h.variant, h.digestLength, rfl, ?_⟩
  rw [blockEvents_eq (blockCount_eq h.waiting h.inBlock h.nonempty), ← h.waiting]
  exact h.compressEvent_h true fits

/-- The low bytes of a word are the same in storage (R38). -/
theorem store_byte (var : Variant) (x : BitVec var.wordBits) (k : Nat) :
    (store var x >>> k).setWidth 8 = (x >>> k).setWidth 8 := by
  have kept : (store var x).toNat = x.toNat := by
    have := x.isLt
    have := Nat.pow_le_pow_right (by decide : 0 < 2) (wordBits_le var)
    rw [store, BitVec.toNat_setWidth, Nat.mod_eq_of_lt (by omega)]
  apply BitVec.eq_of_toNat_eq
  simp only [BitVec.toNat_setWidth, BitVec.toNat_ushiftRight, kept]

section

variable {var : Variant} {nn i : Nat} {digest : Vector (BitVec var.wordBits) 8} {s : State}

/-- A digest byte of the engine is that byte of the serialized state (R53, R182). -/
theorem Digested.digestByte_eq (h : Digested var nn digest s) (hi : i < 8 * var.wordBytes) :
    digestByte s i = some ((serialize var.wordBytes digest).getD i 0) := by
  have hn := wordBytes_pos var
  have word : i / var.wordBytes < 8 := (Nat.div_lt_iff_lt_mul hn).2 hi
  obtain rfl := h.variant
  rw [digestByte, dif_pos word, List.getD_eq_getElem?_getD, serialize_getElem? digest word hn]
  simp only [h.hash, store8, vec8_getElem, store_byte]
  rfl

theorem Digested.rddig (h : Digested var nn digest s) (legal : nn ≤ var.nnMax) (hi : i < nn) :
    ∃ t, Answers (.rddig i) ⟨0, ((serialize var.wordBytes digest).getD i 0).setWidth 64⟩ s t ∧
      Digested var nn digest t := by
  have short := nnMax_le var
  have inState : i < 8 * var.wordBytes := by
    rw [← nnMax_eq_words]
    omega
  have named : ¬ s.nn.toNat ≤ i := by
    rw [h.digestLength]
    omega
  refine ⟨respond rcOk _ s, ⟨decide_eq_true (by omega), ?_, rfl⟩, { h with }⟩
  rw [exec, execRddig, permittedIn_allowed (by simp [h.inDone]) (by simp [h.inDone]), if_neg named,
    h.digestByte_eq inState]

end

end Sys2Proof.Machine
end

section
/-! PROOFS. The commands of `HASH` compute `Hash` (R173). -/

namespace Sys2Proof.Machine

section

variable {var : Variant} {nn kk : Nat} {s : State}

/-- The key bytes of `HASH`: after them the padded key is absorbed. -/
theorem runs_keyCommands {key : List Byte} (start : Keying var nn key [] s)
    (short : key.length < var.blockBytes) :
    ∃ t, Runs (keyCommands key) (List.replicate key.length ⟨0, 0⟩) s t ∧
      Absorbing var nn key.length (absorbedStream var key []) 0 t := by
  obtain ⟨t, runs, whole⟩ := Runs.of_invariant (command := .keyb) (answer := fun _ => ⟨0, 0⟩)
    (fun done byte rest s parts (h : Keying var nn key done s) => h.keyb parts short)
    (List.nil_append key) start
  rw [List.map_const'] at runs
  cases whole with
  | owed _ _ _ more => exact absurd more (Nat.lt_irrefl _)
  | closed _ absorbing => exact ⟨t, runs, absorbing⟩

/-- The data bytes of `HASH`: after them the whole stream is absorbed. -/
theorem runs_dataCommands {key data : List Byte}
    (start : Absorbing var nn kk (absorbedStream var key []) 0 s)
    (short : (absorbedStream var key data).length < 2 ^ var.counterBits) :
    ∃ n t, Runs (dataCommands data) (List.replicate data.length ⟨0, 0⟩) s t ∧
      Absorbing var nn kk (absorbedStream var key data) n t := by
  obtain ⟨t, runs, n, whole⟩ := Runs.of_invariant (command := .datab) (answer := fun _ => ⟨0, 0⟩)
    (P := fun done s => ∃ n, Absorbing var nn kk (absorbedStream var key done) n s)
    (fun done byte rest s parts ⟨n, h⟩ => by
      have less : (absorbedStream var key done).length < 2 ^ var.counterBits := by
        rw [← parts, absorbedStream_append, List.length_append] at short
        omega
      obtain ⟨m, t, answers, next⟩ := h.datab less byte
      exact ⟨t, answers, m, by rwa [absorbedStream_append]⟩)
    (List.nil_append data) ⟨0, start⟩
  rw [List.map_const'] at runs
  exact ⟨n, t, runs, whole⟩

theorem map_range_getD {α β : Type} (f : α → β) (l : List α) (a : α) {n : Nat} (h : n ≤ l.length) :
    (List.range n).map (fun i => f (l.getD i a)) = (l.take n).map f := by
  refine List.ext_getElem (by simp [h]) fun i hi _ => ?_
  have inside : i < l.length := by
    rw [List.length_map, List.length_range] at hi
    omega
  simp only [List.getElem_map, List.getElem_range, List.getElem_take, List.getD_eq_getElem _ _ inside]

/-- Two more of the same, one in front and one behind. -/
theorem replicate_add_two {α : Type} (a : α) (m : Nat) (l : List α) :
    List.replicate (m + 2) a ++ l = a :: (List.replicate m a ++ a :: l) := by
  rw [List.replicate_succ, List.replicate_succ', List.cons_append, List.append_assoc,
    List.singleton_append]

/-- The digest bytes of `HASH`, read in order. -/
theorem runs_digestCommands {digest : Vector (BitVec var.wordBits) 8}
    (start : Digested var nn digest s) (legal : nn ≤ var.nnMax) :
    ∃ t, Runs (digestCommands nn)
      (((serialize var.wordBytes digest).take nn).map fun b => ⟨0, b.setWidth 64⟩) s t ∧
      Digested var nn digest t := by
  have enough : nn ≤ (serialize var.wordBytes digest).length := by
    rwa [length_serialize, ← nnMax_eq_words]
  rw [← map_range_getD (fun b : Byte => (⟨0, b.setWidth 64⟩ : Response)) _ 0 enough]
  refine Runs.of_invariant (command := .rddig) (P := fun _ s => Digested var nn digest s)
    (fun done i rest s parts h => h.rddig legal ?_) (List.nil_append _) start
  have : i ∈ List.range nn := by simp [← parts]
  exact List.mem_range.1 this

end

/-- Settles O52. Every command keeps the absorbed stream (`Streamed`): `INIT` starts it, the bytes extend
it, `FINAL` turns its blocks into the digest (`blockEvents`), and `RDDIG` reads that. -/
theorem hashCommandsComputeHash : Obligations.HashCommandsComputeHash := by
  intro var nn key data s permitted legal short
  obtain ⟨-, hn, hk⟩ := legalLengths_iff.1 legal
  obtain ⟨s₁, init, keying⟩ := exec_init_keying permitted legal
  obtain ⟨s₂, keyRuns, keyed⟩ := runs_keyCommands keying (hk.trans_lt (kkMax_lt_blockBytes var))
  obtain ⟨n, s₃, dataRuns, absorbed⟩ := runs_dataCommands keyed short
  obtain ⟨s₄, final, digested⟩ := absorbed.final short
  obtain ⟨t, digestRuns, stillDigested⟩ := runs_digestCommands digested hn
  refine ⟨_, _, t, assemble_of_wf (hashCommands_wf_iff.2 (lt_256_of_legalLengths legal)),
    if_pos legal, ?_, stillDigested.inDone⟩
  have whole := Runs.cons init ((keyRuns.append dataRuns).append (.cons final digestRuns))
  rw [replicate_add_two, List.replicate_add]
  exact whole.session

end Sys2Proof.Machine
end

section
/-! SUPPORT. What `RDREG` and `RDDIG` read (R180, R182), and each command on both kinds of index (R181,
R184). -/

namespace Sys2Proof.Machine

/-! ## Register numbers and the registers' values (R180) -/

theorem regOf_hash (i : Fin 8) : regOf i.val = some (.hash i) := dif_pos i.isLt

/-- The numbers below 11 name the registers other than `STATUS` (R180). -/
theorem regOf_of_le_ten {idx : Nat} (h : idx ≤ 10) :
    ∃ reg, regOf idx = some reg ∧ reg ≠ .status := by
  interval_cases idx <;> exact ⟨_, rfl, nofun⟩

/-- Concatenation as a number: the left word stands above the `n` bits of the right one. -/
theorem append_toNat {m n : Nat} (x : BitVec m) (y : BitVec n) :
    (x ++ y).toNat = x.toNat * 2 ^ n + y.toNat := by
  rw [BitVec.toNat_append, ← Nat.shiftLeft_add_eq_or_of_lt y.isLt, Nat.shiftLeft_eq]

variable (s : State)

theorem readReg_tLo : readReg s .tLo = BitVec.ofNat 64 (s.t.toNat % 2 ^ 64) :=
  BitVec.eq_of_toNat_eq (by simp [readReg])

theorem readReg_tHi : readReg s .tHi = BitVec.ofNat 64 (s.t.toNat / 2 ^ 64) :=
  BitVec.eq_of_toNat_eq (by simp [readReg, Nat.shiftRight_eq_div_pow])

/-- `CFG` as a number (R25). -/
theorem cfgWord_eq : cfgWord s =
    BitVec.ofNat 64 ((varBit s.var).toNat * 2 ^ 16 + s.kk.toNat * 2 ^ 8 + s.nn.toNat) := by
  apply BitVec.eq_of_toNat_eq
  simp only [cfgWord, append_toNat, BitVec.toNat_ofNat, BitVec.ofNat_eq_ofNat]
  omega

/-- `STATUS` as a number (R30). -/
theorem statusWord_eq : statusWord s =
    BitVec.ofNat 64
      (s.c.toNat * 2 ^ 8 + (errCode s.err).toNat * 2 ^ 4 + (phaseCode s.phase).toNat) := by
  apply BitVec.eq_of_toNat_eq
  simp only [statusWord, append_toNat, BitVec.toNat_ofNat, BitVec.ofNat_eq_ofNat]
  omega

variable {s}

/-- With every register zero only `STATUS` can read as anything else (R181 a). -/
theorem readReg_of_allZero (zero : AllZero s) {reg : Reg} (ne : reg ≠ .status) :
    readReg s reg = 0 := by
  cases reg with
  | hash i => simp [readReg, zero.h]
  | tLo => simp [readReg, zero.t]
  | tHi => simp [readReg, zero.t]
  | cfg => simp [readReg, cfgWord, varBit, zero.var, zero.kk, zero.nn]
  | status => exact absurd rfl ne

/-- `STATUS` after fault `e` is `0x00e4` (R181 a). -/
theorem statusWord_of_fault {f : EngineFault} (c : s.c = 0) (phase : s.phase = .fault)
    (err : s.err = some f) :
    statusWord s = BitVec.ofNat 64 (16 * (faultCode f).toNat + 4) := by
  rw [statusWord_eq, c, phase, err]
  refine congrArg _ ?_
  simp only [errCode, phaseCode, BitVec.toNat_ofNat, BitVec.ofNat_eq_ofNat]
  omega

/-! ## Digest bytes (R182) -/

/-- Digest byte `(W/8) * j + k` is byte `k` of `H[j]`. -/
theorem digestByte_word {j : Fin 8} {k : Nat} (hk : k < s.var.wordBytes) :
    digestByte s (s.var.wordBytes * j.val + k) = some ((s.h[j] >>> (8 * k)).setWidth 8) := by
  have word : (s.var.wordBytes * j.val + k) / s.var.wordBytes = j.val := by
    rw [Nat.mul_add_div (by omega), Nat.div_eq_of_lt hk, Nat.add_zero]
  have position : (s.var.wordBytes * j.val + k) % s.var.wordBytes = k := by
    rw [Nat.mul_add_mod, Nat.mod_eq_of_lt hk]
  simp [digestByte, word, position]

/-- Byte `k` of a word, zero-extended, as a number (R53, R182). -/
theorem setWidth_byte_eq_ofNat (x : Word) (k : Nat) :
    ((x >>> (8 * k)).setWidth 8).setWidth 64 = BitVec.ofNat 64 (x.toNat / 2 ^ (8 * k) % 256) := by
  apply BitVec.eq_of_toNat_eq
  simp [Nat.shiftRight_eq_div_pow]

/-! ## The commands -/

variable {idx : Nat}

theorem exec_rdreg_named {reg : Reg} (named : regOf idx = some reg) :
    exec (.rdreg idx) s = .next (answered 0 (readReg s reg) s) := by
  simp only [exec, execRdreg, named]
  rfl

theorem exec_rdreg_unnamed (hf : s.phase ≠ .fault) (unnamed : 11 < idx) :
    exec (.rdreg idx) s = .next (faulted .operandRange s) := by
  simp only [exec, execRdreg, regOf_eq_none.2 unnamed, unlessFaulted_run hf]
  rfl

theorem exec_rddig_served {b : Byte} (inDone : s.phase = .done) (inDigest : idx < s.nn.toNat)
    (byte : digestByte s idx = some b) :
    exec (.rddig idx) s = .next (answered 0 (b.setWidth 64) s) := by
  rw [exec, execRddig, permittedIn_allowed (by simp [inDone]) (by simp [inDone]),
    if_neg (by omega), byte]
  rfl

theorem exec_rddig_truncated (inDone : s.phase = .done) (outside : s.nn.toNat ≤ idx) :
    exec (.rddig idx) s = .next (faulted .operandRange s) := by
  rw [exec, execRddig, permittedIn_allowed (by simp [inDone]) (by simp [inDone]), if_pos outside]
  rfl

end Sys2Proof.Machine
end

section
/-! PROOFS. `RDREG` and `RDDIG`, each by its whole rule (R181, R184). -/

namespace Sys2Proof.Machine

/-- Settles O6: one register at a time; in `FAULT` the registers are those of `AllZero`. -/
theorem rdregCommandFollowsItsRule : Obligations.RdregCommandFollowsItsRule := by
  refine fun s => ⟨fun _ fits => encode_rdreg_toNat fits, fun i => exec_rdreg_named (regOf_hash i),
    ?_, ?_, ?_, ?_, fun idx unnamed inFault => ?_, fun _ unnamed hf => exec_rdreg_unnamed hf unnamed,
    fun f inv inFault err => ⟨fun idx low => ?_, ?_⟩⟩
  · rw [exec_rdreg_named (reg := .tLo) rfl, readReg_tLo]
  · rw [exec_rdreg_named (reg := .tHi) rfl, readReg_tHi]
  · rw [exec_rdreg_named (reg := .cfg) rfl, readReg, cfgWord_eq]
    cases s.var <;> rfl
  · rw [exec_rdreg_named (reg := .status) rfl, readReg, statusWord_eq]
  · refine exec_rejected ?_
    simp [permission, inFault, unnamed]
  · obtain ⟨reg, named, ne⟩ := regOf_of_le_ten low
    rw [exec_rdreg_named named, readReg_of_allZero (inv.fault inFault) ne]
  · rw [exec_rdreg_named (reg := .status) rfl, readReg,
      statusWord_of_fault (inv.fault inFault).c inFault err]

/-- Settles O7: the phase check, the end of the digest, and a byte of a word (`digestByte_word`). -/
theorem rddigCommandFollowsItsRule : Obligations.RddigCommandFollowsItsRule := by
  refine fun s => ⟨fun _ fits => encode_rddig_toNat fits,
    fun _ inFault => permittedIn_fault inFault _ _,
    fun _ hf hp => permittedIn_sequence (by simpa using hp) hf _,
    fun _ inDone outside => exec_rddig_truncated inDone outside,
    fun j k inDone hk inDigest => ?_⟩
  rw [exec_rddig_served inDone inDigest (digestByte_word hk), setWidth_byte_eq_ofNat]

end Sys2Proof.Machine
end

section
/-! PROOFS. What no read can reach: `BUF` and the Compressor's registers (R183). -/

namespace Sys2Proof.Machine

/-- The state with other contents of the registers that no read names (R183). -/
def State.withHidden (s : State) (buf : Memory) (work : Option Working) (r : BitVec 4)
    (g : BitVec 3) : State := { s with buf := buf, work := work, r := r, g := g }

/-- Where `k` answers, `k'` gives the same response and the same phase. -/
def SameAnswer (k k' : Result) : Prop :=
  ∀ t, k = .next t → ∃ t', k' = .next t' ∧ t'.response = t.response ∧ t'.phase = t.phase

theorem SameAnswer.next {t t' : State} (response : t'.response = t.response)
    (phase : t'.phase = t.phase) : SameAnswer (.next t) (.next t') :=
  fun _ h => by cases h; exact ⟨t', rfl, response, phase⟩

/-- Where `k` stops, nothing is asked. -/
theorem SameAnswer.stop (f : Fault) (k : Result) : SameAnswer (.fault f) k := nofun

theorem SameAnswer.ite {p : Prop} [Decidable p] {a a' b b' : Result}
    (ha : SameAnswer a a') (hb : SameAnswer b b') :
    SameAnswer (if p then a else b) (if p then a' else b') := by
  split <;> assumption

section
variable {s : State} {buf : Memory} {work : Option Working} {r : BitVec 4} {g : BitVec 3}

theorem SameAnswer.unlessFaulted {k k' : Result} (h : SameAnswer k k') :
    SameAnswer (unlessFaulted s k) (unlessFaulted (s.withHidden buf work r g) k') :=
  .ite (.next rfl rfl) h

theorem SameAnswer.permittedIn {ps : List Phase} {k k' : Result} (h : SameAnswer k k') :
    SameAnswer (permittedIn ps s k) (permittedIn ps (s.withHidden buf work r g) k') :=
  .unlessFaulted (.ite h (.next rfl rfl))

theorem readReg_withHidden (reg : Reg) :
    readReg (s.withHidden buf work r g) reg = readReg s reg := by
  cases reg <;> rfl

theorem digestByte_withHidden (idx : Nat) :
    digestByte (s.withHidden buf work r g) idx = digestByte s idx := rfl

theorem execRdreg_withHidden (idx : Nat) :
    SameAnswer (execRdreg idx s) (execRdreg idx (s.withHidden buf work r g)) := by
  unfold execRdreg
  cases regOf idx with
  | none => exact .unlessFaulted (.next rfl rfl)
  | some reg =>
    simp only [readReg_withHidden]
    exact .next rfl rfl

theorem execRddig_withHidden (idx : Nat) :
    SameAnswer (execRddig idx s) (execRddig idx (s.withHidden buf work r g)) := by
  refine .permittedIn (.ite (.next rfl rfl) ?_)
  rw [digestByte_withHidden]
  cases digestByte s idx with
  | none => exact .stop _ _
  | some b => exact .next rfl rfl

theorem execRdrom_withHidden (addr : Nat) :
    SameAnswer (execRdrom addr s) (execRdrom addr (s.withHidden buf work r g)) := by
  refine .unlessFaulted ?_
  cases rom addr <;> exact .next rfl rfl

end

/-- Settles O32: read by read, the value is read from none of the replaced registers. -/
theorem readsDoNotReachTheBuffer : Obligations.ReadsDoNotReachTheBuffer := by
  rintro i s t buf work r g (⟨idx, rfl⟩ | ⟨idx, rfl⟩ | ⟨addr, rfl⟩)
  · exact execRdreg_withHidden idx t
  · exact execRddig_withHidden idx t
  · exact execRdrom_withHidden addr t

end Sys2Proof.Machine
end

section
/-! SUPPORT. Why a command takes the engine into `FAULT`: each fault, raised by a command outside `FAULT`,
with the cause its rule names (R191, R192, R194, R195). -/

namespace Sys2Proof.Machine

/-- The causes for which a command that arrives in `s`, a state outside `FAULT`, raises a fault. -/
inductive FaultCause (s : State) : Instr → EngineFault → Prop
  | outOfSequence {i : Instr} (outside : s.phase ∉ phasesOf i) : FaultCause s i .sequenceError
  | illegalLengths {var : Variant} {nn kk : Nat} (permitted : s.phase = .idle ∨ s.phase = .done)
      (illegal : legalLengths var nn kk = false) :
      FaultCause s (.init var nn kk) .invalidParameter
  | noRegister {idx : Nat} (unnamed : 11 < idx) : FaultCause s (.rdreg idx) .operandRange
  | noDigestByte {idx : Nat} (inDone : s.phase = .done) (outside : s.nn.toNat ≤ idx) :
      FaultCause s (.rddig idx) .operandRange
  | noRomItem {addr : Nat} (hole : rom addr = none) : FaultCause s (.rdrom addr) .operandRange
  | counterFullAtDatab {byte : Byte} (inData : s.phase = .data) (full : s.c.toNat = s.var.blockBytes)
      (overflows : counterWouldOverflow s.var.blockBytes s = true) :
      FaultCause s (.datab byte) .lengthOverflow
  | counterFullAtFinal (inData : s.phase = .data)
      (overflows : counterWouldOverflow s.c.toNat s = true) : FaultCause s .final .lengthOverflow

theorem faultCode_ne_ok (f : EngineFault) : faultCode f ≠ 0 := by cases f <;> decide

variable {i : Instr} {f : EngineFault} {s t : State}

theorem permission_eq_sequence_of_outside (hf : s.phase ≠ .fault) (outside : s.phase ∉ phasesOf i) :
    permission i s.phase = .sequence := permission_eq_sequence_iff.2 ⟨hf, outside⟩

/-- A cause has its fault as effect. -/
theorem FaultCause.raises (cause : FaultCause s i f) (hf : s.phase ≠ .fault) :
    exec i s = .next (faulted f s) := by
  cases cause with
  | outOfSequence outside => exact exec_sequence (permission_eq_sequence_of_outside hf outside)
  | illegalLengths permitted illegal => exact exec_init_invalid permitted illegal
  | noRegister unnamed => exact exec_rdreg_unnamed hf unnamed
  | noDigestByte inDone outside => exact exec_rddig_truncated inDone outside
  | noRomItem hole => exact exec_rdrom_unassigned hf hole
  | counterFullAtDatab inData full overflows => exact exec_datab_overflow inData full overflows
  | counterFullAtFinal inData overflows => exact exec_final_overflow inData overflows

/-! ## Every fault has a cause -/

/-- The state after a fault tells which fault it was. -/
theorem fault_eq_of_raised {f' : EngineFault}
    (h : (.next (faulted f' s) : Result) = .next (faulted f s)) : f' = f := by
  have state : faulted f' s = faulted f s := Host.Outcome.next.inj h
  exact Option.some.inj (congrArg State.err state)

/-- An answer with code 0 is no fault entry. -/
theorem respond_ok_ne_faulted {value : Word} {s' : State} : respond rcOk value s' ≠ faulted f s := by
  intro h
  have code : rcOk = faultCode f :=
    congrArg Response.rc (Option.some.inj (congrArg State.response h))
  exact faultCode_ne_ok f code.symm

/-- A fault that was raised where `f'` has a cause is `f'`. -/
theorem FaultCause.of_raised {f' : EngineFault} (cause : FaultCause s i f') (hf : s.phase ≠ .fault)
    (h : exec i s = .next (faulted f s)) : FaultCause s i f := by
  obtain rfl := fault_eq_of_raised ((cause.raises hf).symm.trans h)
  exact cause

/-- A command that answers with code 0 has raised nothing. -/
theorem not_raised_of_ok {value : Word} {s' : State} (ok : exec i s = .next (respond rcOk value s'))
    (h : exec i s = .next (faulted f s)) : FaultCause s i f :=
  absurd (Host.Outcome.next.inj (ok.symm.trans h)) respond_ok_ne_faulted

theorem faultCause_of_init {var : Variant} {nn kk : Nat} (hf : s.phase ≠ .fault)
    (permitted : s.phase ∈ [.idle, .done]) (h : exec (.init var nn kk) s = .next (faulted f s)) :
    FaultCause s (.init var nn kk) f := by
  have permitted : s.phase = .idle ∨ s.phase = .done := by simpa using permitted
  cases legal : legalLengths var nn kk with
  | true => exact not_raised_of_ok (execInit_accepted permitted legal) h
  | false => exact (FaultCause.illegalLengths permitted legal).of_raised hf h

theorem faultCause_of_keyb {byte : Byte} (inKey : s.phase = .key)
    (h : exec (.keyb byte) s = .next (faulted f s)) : FaultCause s (.keyb byte) f := by
  rw [exec, execKeyb, permittedIn_allowed (by simp [inKey]) (by simp [inKey])] at h
  split at h
  · exact absurd (Host.Outcome.next.inj h) respond_ok_ne_faulted
  · cases h

theorem faultCause_of_datab {byte : Byte} (hf : s.phase ≠ .fault) (inData : s.phase = .data)
    (h : exec (.datab byte) s = .next (faulted f s)) : FaultCause s (.datab byte) f := by
  have raised := h
  rw [exec, execDatab, permittedIn_allowed (by simp [inData]) hf] at h
  split_ifs at h with full overflows
  · exact (FaultCause.counterFullAtDatab inData full overflows).of_raised hf raised
  all_goals
    obtain ⟨s', -, answer⟩ := absorbData_next h
    exact absurd answer.symm respond_ok_ne_faulted

theorem faultCause_of_final (hf : s.phase ≠ .fault) (inData : s.phase = .data)
    (h : exec .final s = .next (faulted f s)) : FaultCause s .final f := by
  cases overflows : counterWouldOverflow s.c.toNat s with
  | true => exact (FaultCause.counterFullAtFinal inData overflows).of_raised hf h
  | false => exact not_raised_of_ok (exec_final inData overflows) h

theorem faultCause_of_rdreg {idx : Nat} (hf : s.phase ≠ .fault)
    (h : exec (.rdreg idx) s = .next (faulted f s)) : FaultCause s (.rdreg idx) f := by
  cases named : regOf idx with
  | some reg => exact not_raised_of_ok (exec_rdreg_named named) h
  | none => exact (FaultCause.noRegister (regOf_eq_none.1 named)).of_raised hf h

theorem faultCause_of_rddig {idx : Nat} (hf : s.phase ≠ .fault) (inDone : s.phase = .done)
    (h : exec (.rddig idx) s = .next (faulted f s)) : FaultCause s (.rddig idx) f := by
  rcases Nat.lt_or_ge idx s.nn.toNat with inDigest | outside
  · rw [exec, execRddig, permittedIn_allowed (by simp [inDone]) hf, if_neg (by omega)] at h
    split at h
    · exact absurd (Host.Outcome.next.inj h) respond_ok_ne_faulted
    · cases h
  · exact (FaultCause.noDigestByte inDone outside).of_raised hf h

theorem faultCause_of_rdrom {addr : Nat} (hf : s.phase ≠ .fault)
    (h : exec (.rdrom addr) s = .next (faulted f s)) : FaultCause s (.rdrom addr) f := by
  cases item : rom addr with
  | some x => exact not_raised_of_ok (exec_rdrom_assigned hf item) h
  | none => exact (FaultCause.noRomItem item).of_raised hf h

/-- Outside `FAULT` a command raises a fault exactly for a cause of that fault. -/
theorem exec_eq_faulted_iff (hf : s.phase ≠ .fault) :
    exec i s = .next (faulted f s) ↔ FaultCause s i f := by
  refine ⟨fun h => ?_, fun cause => cause.raises hf⟩
  by_cases permitted : s.phase ∈ phasesOf i
  · cases i with
    | reset => exact not_raised_of_ok rfl h
    | init => exact faultCause_of_init hf permitted h
    | keyb => exact faultCause_of_keyb (List.mem_singleton.1 permitted) h
    | datab => exact faultCause_of_datab hf (List.mem_singleton.1 permitted) h
    | final => exact faultCause_of_final hf (List.mem_singleton.1 permitted) h
    | rdreg => exact faultCause_of_rdreg hf h
    | rddig => exact faultCause_of_rddig hf (List.mem_singleton.1 permitted) h
    | rdrom => exact faultCause_of_rdrom hf h
  · exact (FaultCause.outOfSequence permitted).of_raised hf h

/-! ## Entering and leaving `FAULT` -/

/-- A command that takes the engine into `FAULT` does so by fault entry (R196). -/
theorem CommandOutcome.enters_fault (o : CommandOutcome s i t) (hf : s.phase ≠ .fault)
    (inFault : t.phase = .fault) : ∃ f, t = raiseFault f s := by
  cases o with
  | rejected _ already => exact absurd already hf
  | faulted _ _ f => exact ⟨f, rfl⟩
  | reset => cases inFault
  | init =>
    rw [respond_phase, beginInvocation_phase] at inFault
    split at inFault <;> cases inFault
  | @keyb _ s' permitted stored =>
    rcases closeKeyBlock_phase s' with p | p <;>
      simp [p, absorb_phase stored, permitted] at inFault
  | datab permitted _ stored => simp [absorb_phase stored, permitted] at inFault
  | databFull permitted _ _ stored => simp [absorb_phase stored, permitted] at inFault
  | final => cases inFault
  | read => exact absurd inFault hf

/-- Of all commands only `RESET` leads out of `FAULT` (R200). -/
theorem CommandOutcome.leaves_fault (o : CommandOutcome s i t) (inFault : s.phase = .fault)
    (left : t.phase ≠ .fault) : i = .reset ∧ t = resetEngine s := by
  cases o with
  | rejected | read => exact absurd inFault left
  | faulted _ notFault => exact absurd inFault notFault
  | reset => exact ⟨rfl, rfl⟩
  | init permitted => exact absurd inFault (notFault_of_idle_or_done permitted)
  | keyb permitted | datab permitted | databFull permitted | final permitted =>
    simp [inFault] at permitted

/-! ## The step by what waits (R75, R84), and a word that is no command (R73, R193) -/

/-- Everything a step can meet, with its answer: nothing, a hardware reset, a word that is no command, a
command. -/
theorem step_cases (s : State) :
    (s.input = [] ∧ step s = .next s) ∨
    (∃ e rest, s.input = e :: rest ∧ (e = .hardReset ∨ ∃ w, e = .commandCut w) ∧
      step s = .next (afterHardReset rest)) ∨
    (∃ w rest, s.input = .command w :: rest ∧
      ((∃ why, decode w = .illegal why ∧ step s = .next (illegalWord { s with input := rest })) ∨
        ∃ i, decode w = .command i ∧ step s = exec i { s with input := rest })) := by
  unfold step
  obtain ⟨input, hd⟩ | ⟨e, rest, input, resets, hd⟩ |
    ⟨w, rest, input, ⟨why, decodes, hd⟩ | ⟨i, decodes, hd⟩⟩ := deliver_cases s <;> rw [hd]
  · exact .inl ⟨input, rfl⟩
  · exact .inr (.inl ⟨e, rest, input, resets, rfl⟩)
  · exact .inr (.inr ⟨w, rest, input, .inl ⟨why, decodes, rfl⟩⟩)
  · exact .inr (.inr ⟨w, rest, input, .inr ⟨i, decodes, rfl⟩⟩)

theorem illegalWord_of_fault (inFault : s.phase = .fault) : illegalWord s = reject s := if_pos inFault

theorem illegalWord_of_notFault (hf : s.phase ≠ .fault) :
    illegalWord s = raiseFault .illegalCommand s := if_neg hf

theorem step_illegal {w : CmdWord} {rest : List HostEvent} {why : Illegal}
    (input : s.input = .command w :: rest) (decodes : decode w = .illegal why) :
    step s = .next (illegalWord { s with input := rest }) := by
  simp [step, deliver, input, decodes]

theorem step_command {w : CmdWord} {rest : List HostEvent} (input : s.input = .command w :: rest)
    (decodes : decode w = .command i) : step s = exec i { s with input := rest } :=
  (stepRunsTheDeliveredCommand w rest i s).1 input decodes

theorem opcodeRow_mem_opcodeMap (i : Instr) : opcodeRow i ∈ opcodeMap := by
  cases i <;> simp [opcodeMap, opcodeRow]

/-- The opcode map has no rows but those of the commands. -/
theorem exists_opcodeRow_of_mem {row : OpcodeRow} (listed : row ∈ opcodeMap) :
    ∃ i, opcodeRow i = row := by
  obtain ⟨i, -, rowOf⟩ := List.mem_map.1 listed
  exact ⟨i, rowOf⟩

end Sys2Proof.Machine
end

section
/-! PROOFS. When each fault is raised (R191 to R195, R213). -/

namespace Sys2Proof.Machine

theorem faultCause_sequenceError_iff {s : State} {i : Instr} :
    FaultCause s i .sequenceError ↔ s.phase ∉ phasesOf i :=
  ⟨fun | .outOfSequence outside => outside, .outOfSequence⟩

/-- Settles O10: the phases that are in no row of the command. -/
theorem sequenceErrorExactlyWhenNotPermitted : Obligations.SequenceErrorExactlyWhenNotPermitted := by
  intro i s hf
  rw [exec_eq_faulted_iff hf, faultCause_sequenceError_iff]
  cases i with
  | init | reset | rdreg | rdrom => cases p : s.phase <;> simp_all [phasesOf]
  | keyb | datab | final | rddig => simp [phasesOf]

theorem legalLengths_eq_false_iff {var : Variant} {nn kk : Nat} :
    legalLengths var nn kk = false ↔ nn < 1 ∨ var.nnMax < nn ∨ var.kkMax < kk := by
  rw [← Bool.not_eq_true, legalLengths_iff]
  omega

/-- Settles O11: the one cause of `InvalidParameter`. -/
theorem invalidParameterExactlyWhenLengthsIllegal :
    Obligations.InvalidParameterExactlyWhenLengthsIllegal := by
  intro i s hf
  rw [exec_eq_faulted_iff hf]
  constructor
  · intro cause
    cases cause with
    | @illegalLengths var nn kk permitted illegal =>
      refine ⟨var, nn, kk, rfl, permitted, ?_⟩
      cases var <;> exact legalLengths_eq_false_iff.1 illegal
  · rintro ⟨var, nn, kk, rfl, permitted, outOfRange⟩
    refine .illegalLengths permitted (legalLengths_eq_false_iff.2 ?_)
    cases var <;> exact outOfRange

/-- Settles O12: a word that decodes stands in its command's row, and no command raises the fault. -/
theorem illegalCommandExactlyWhenNoRowMatches : Obligations.IllegalCommandExactlyWhenNoRowMatches := by
  intro w rest s hf input
  cases decodes : decode w with
  | command i =>
    have noCause : ¬ FaultCause { s with input := rest } i .illegalCommand := nofun
    rw [step_command input decodes]
    exact iff_of_false (mt (exec_eq_faulted_iff (s := { s with input := rest }) hf).1 noCause)
      fun noRow => noRow _ (opcodeRow_mem_opcodeMap i) (and_mask_of_decode decodes)
  | illegal why =>
    refine iff_of_true ?_ fun row listed matching => ?_
    · exact (step_illegal input decodes).trans (congrArg _ (illegalWord_of_notFault hf))
    · obtain ⟨i, rfl⟩ := exists_opcodeRow_of_mem listed
      cases decodes.symm.trans (decode_of_and_mask i matching)

/-- Settles O13: the three causes of `OperandRange`. -/
theorem operandRangeExactlyWhenNothingIsNamed : Obligations.OperandRangeExactlyWhenNothingIsNamed := by
  intro i s wf hf
  rw [exec_eq_faulted_iff hf]
  constructor
  · intro cause
    cases cause with
    | noRegister unnamed => exact .inl ⟨_, rfl, unnamed⟩
    | noDigestByte inDone outside => exact .inr (.inl ⟨_, rfl, inDone, outside⟩)
    | noRomItem hole =>
      exact .inr (.inr ⟨_, rfl, (rom_eq_none (by simpa [Instr.wf] using wf)).1 hole⟩)
  · rintro (⟨_, rfl, unnamed⟩ | ⟨_, rfl, inDone, outside⟩ | ⟨_, rfl, hole⟩)
    · exact .noRegister unnamed
    · exact .noDigestByte inDone outside
    · exact .noRomItem ((rom_eq_none (by simpa [Instr.wf] using wf)).2 hole)

/-- The two causes of `LengthOverflow`, with the counter as a number. -/
theorem faultCause_lengthOverflow_iff {s : State} {i : Instr} :
    FaultCause s i .lengthOverflow ↔
      s.phase = .data ∧
        ((∃ byte, i = .datab byte ∧ s.c.toNat = s.var.blockBytes ∧
            2 ^ s.var.counterBits ≤ s.t.toNat + s.var.blockBytes) ∨
          (i = .final ∧ 2 ^ s.var.counterBits ≤ s.t.toNat + s.c.toNat)) := by
  simp only [← counterWouldOverflow_eq_true]
  constructor
  · intro cause
    cases cause with
    | counterFullAtDatab inData full overflows => exact ⟨inData, .inl ⟨_, rfl, full, overflows⟩⟩
    | counterFullAtFinal inData overflows => exact ⟨inData, .inr ⟨rfl, overflows⟩⟩
  · rintro ⟨inData, ⟨_, rfl, full, overflows⟩ | ⟨rfl, overflows⟩⟩
    · exact .counterFullAtDatab inData full overflows
    · exact .counterFullAtFinal inData overflows

/-- Settles O14: `TW` is the counter's width in either variant. -/
theorem lengthOverflowExactlyWhenCounterIsFull :
    Obligations.LengthOverflowExactlyWhenCounterIsFull := by
  intro i s hf
  rw [exec_eq_faulted_iff hf, faultCause_lengthOverflow_iff]
  cases s.var <;> rfl

/-! ## The table of R213 -/

/-- What a command raises outside `FAULT` stands in its row. -/
theorem FaultCause.mem_mayRaise {s : State} {i : Instr} {f : EngineFault} (cause : FaultCause s i f)
    (hf : s.phase ≠ .fault) : f ∈ mayRaise i := by
  cases cause with
  | outOfSequence outside =>
    cases i with
    | reset | rdreg | rdrom => cases p : s.phase <;> simp_all [phasesOf]
    | init | keyb | datab | final | rddig => simp [mayRaise]
  | illegalLengths | noRegister | noDigestByte | noRomItem | counterFullAtDatab | counterFullAtFinal =>
    simp [mayRaise]

/-- The rows of the table are those of the opcodes: no operand decides what can be raised. -/
theorem mayRaise_eq_of_opcode_eq {i j : Instr} (same : opcode j = opcode i) :
    mayRaise j = mayRaise i := by
  cases i <;> cases j <;> cases same <;> rfl

/-- An engine in `DATA` whose counter is at its last value while a full block waits. -/
def counterAtEnd : State :=
  { State.reset with phase := .data, c := 128, t := BitVec.allOnes 128 }

theorem sequenceError_can_happen {i : Instr} (may : .sequenceError ∈ mayRaise i) :
    ∃ p, p ≠ .fault ∧ p ∉ phasesOf i := by
  cases i with
  | init => exact ⟨.key, by simp, by simp [phasesOf]⟩
  | keyb | datab | final | rddig => exact ⟨.idle, by simp, by simp [phasesOf]⟩
  | reset | rdreg | rdrom => simp [mayRaise] at may

/-- Every fault of a row has a cause in some state outside `FAULT`, for some operands. -/
theorem exists_faultCause {i : Instr} {f : EngineFault} (may : f ∈ mayRaise i) :
    ∃ j s, opcode j = opcode i ∧ s.phase ≠ .fault ∧ FaultCause s j f := by
  cases f with
  | sequenceError =>
    obtain ⟨p, notFault, outside⟩ := sequenceError_can_happen may
    exact ⟨i, { State.reset with phase := p }, rfl, notFault, .outOfSequence outside⟩
  | invalidParameter =>
    cases i with
    | init => exact ⟨.init .B 0 0, State.reset, rfl, by decide, .illegalLengths (.inl rfl) rfl⟩
    | reset | keyb | datab | final | rdreg | rddig | rdrom => simp [mayRaise] at may
  | illegalCommand => cases i <;> simp [mayRaise] at may
  | operandRange =>
    cases i with
    | rdreg => exact ⟨.rdreg 12, State.reset, rfl, by decide, .noRegister (by decide)⟩
    | rddig idx =>
      exact ⟨.rddig idx, { State.reset with phase := .done }, rfl, by decide,
        .noDigestByte rfl (Nat.zero_le idx)⟩
    | rdrom => exact ⟨.rdrom 0x018, State.reset, rfl, by decide, .noRomItem rfl⟩
    | reset | init | keyb | datab | final => simp [mayRaise] at may
  | lengthOverflow =>
    cases i with
    | datab byte =>
      exact ⟨.datab byte, counterAtEnd, rfl, by decide, .counterFullAtDatab rfl rfl (by decide)⟩
    | final => exact ⟨.final, counterAtEnd, rfl, by decide, .counterFullAtFinal rfl (by decide)⟩
    | reset | init | keyb | rdreg | rddig | rdrom => simp [mayRaise] at may

/-- Settles O17: a cause for each fault of a row, and no cause of any other. -/
theorem commandsRaiseExactlyTheirFaults : Obligations.CommandsRaiseExactlyTheirFaults := by
  intro i f
  constructor
  · intro may
    obtain ⟨j, s, same, hf, cause⟩ := exists_faultCause may
    exact ⟨j, s, _, same, hf, cause.raises hf, rfl, rfl⟩
  · rintro ⟨j, s, t, same, hf, hx, inFault, err⟩
    obtain ⟨f', rfl⟩ := (exec_outcome hx).enters_fault hf inFault
    obtain rfl : f' = f := Option.some.inj err
    rw [← mayRaise_eq_of_opcode_eq same]
    exact ((exec_eq_faulted_iff hf).1 hx).mem_mayRaise hf

end Sys2Proof.Machine
end

section
/-! PROOFS. Into `FAULT`, inside it, and out of it (R196, R198, R200). -/

namespace Sys2Proof.Machine

/-- Settles O15: a command's own fault, or `IllegalCommand` for a word that is none. -/
theorem everyFaultEntersTheSameWay : Obligations.EveryFaultEntersTheSameWay := by
  intro w rest s t hf input h inFault
  obtain ⟨i, -, hx⟩ | rfl := step_command_outcome input h
  · exact (exec_outcome hx).enters_fault hf inFault
  · obtain ⟨already, -⟩ | ⟨-, entry⟩ := illegalWord_cases { s with input := rest }
    · exact absurd already hf
    · exact ⟨.illegalCommand, entry⟩

/-- In `FAULT` every command but `RESET` and the reads of the twelve registers is rejected. -/
theorem permission_fault_rejected {i : Instr} (ne : i ≠ .reset)
    (noRegister : ∀ idx, i = .rdreg idx → 11 < idx) : permission i .fault = .rejected := by
  cases i with
  | reset => exact absurd rfl ne
  | rdreg idx => exact if_neg (Nat.not_le.2 (noRegister idx rfl))
  | init | keyb | datab | final | rddig | rdrom => rfl

/-- Settles O9: the two commands that execute, then the words that do not, commands or not. -/
theorem faultRejectsAllButResetAndRdreg : Obligations.FaultRejectsAllButResetAndRdreg := by
  intro w rest s inFault input
  refine ⟨fun decodes => step_command input decodes, fun idx decodes low => ?_,
    fun notReset noRegister => ?_⟩
  · obtain ⟨reg, named⟩ := Option.ne_none_iff_exists'.1 (mt regOf_eq_none.1 (Nat.not_lt.2 low))
    exact ⟨_, (step_command input decodes).trans (exec_rdreg_named named)⟩
  · cases decodes : decode w with
    | command i =>
      rw [decodes] at notReset noRegister
      rw [step_command input decodes]
      refine exec_rejected (inFault.symm ▸ permission_fault_rejected ?_ fun idx read => ?_)
      · exact fun reset => notReset (congrArg _ reset)
      · exact noRegister idx (congrArg _ read)
    | illegal why =>
      exact (step_illegal input decodes).trans (congrArg _ (illegalWord_of_fault inFault))

/-- Settles O16: the four kinds of step; an idle one and an illegal word stay in `FAULT`. -/
theorem faultIsLeftOnlyByReset : Obligations.FaultIsLeftOnlyByReset := by
  intro s t inFault h left
  obtain ⟨-, answer⟩ | ⟨e, rest, input, resets, answer⟩ |
    ⟨w, rest, input, ⟨_, -, answer⟩ | ⟨i, decodes, answer⟩⟩ := step_cases s <;> rw [answer] at h
  · cases h
    exact absurd inFault left
  · cases h
    exact ⟨e, rest, input, .inr ⟨resets, rfl⟩⟩
  · cases h
    rw [illegalWord_of_fault (s := { s with input := rest }) inFault] at left
    exact absurd inFault left
  · obtain ⟨rfl, rfl⟩ := (exec_outcome h).leaves_fault inFault left
    exact ⟨_, rest, input, .inl ⟨w, rfl, decodes, rfl⟩⟩

end Sys2Proof.Machine
end

section
/-! PROOFS. No step stops under the invariant (R202). -/

namespace Sys2Proof.Machine

/-- The lengths and the counts of the invariant keep every access inside `BUF` and `H`. -/
theorem Inv.exec_answers {s : State} (h : Inv s) (i : Instr) : ∃ t, exec i s = .next t := by
  by_contra noAnswer
  have block := blockBytes_le s.var
  obtain ⟨_, -, inKey, high⟩ | ⟨_, -, inData, notFull, high⟩ | ⟨_, -, inDone, inDigest, outside⟩ :=
    (stopsExactlyWhereStorageEnds i s).1 (not_exists.1 noAnswer)
  · obtain ⟨-, -, keyLength⟩ := h.lengths (.inl inKey)
    obtain ⟨count, -⟩ := h.key inKey
    have := kkMax_le s.var
    omega
  · obtain ⟨count, -⟩ := h.data inData
    omega
  · obtain ⟨-, digestLength, -⟩ := h.lengths (.inr (.inr inDone))
    rw [nnMax_eq_words] at digestLength
    omega

/-- Settles O25: only a command could stop. -/
theorem stepNeverStopsUnderInvariant : Obligations.StepNeverStopsUnderInvariant := by
  intro s h
  obtain ⟨-, answer⟩ | ⟨_, _, -, -, answer⟩ | ⟨_, rest, -, ⟨_, -, answer⟩ | ⟨i, -, answer⟩⟩ :=
    step_cases s
  · exact ⟨_, answer⟩
  · exact ⟨_, answer⟩
  · exact ⟨_, answer⟩
  · rw [answer]
    exact (h.withInput rest).exec_answers i

end Sys2Proof.Machine
end

section
/-! PROOFS. What moves `T` (R23, R206). -/

namespace Sys2Proof.Machine

@[simp] theorem closeKeyBlock_t (s : State) : (closeKeyBlock s).t = s.t := by
  unfold closeKeyBlock; split <;> rfl

/-- Settles O29: outcome by outcome; an absorbed byte does not move `T`. -/
theorem counterMovesOnlyBeforeCompression : Obligations.CounterMovesOnlyBeforeCompression := by
  intro i s t hx moved
  cases exec_outcome hx with
  | rejected | read => exact absurd rfl moved
  | faulted => exact .inl ⟨rfl, .inr (.inl rfl)⟩
  | reset => exact .inl ⟨rfl, .inl rfl⟩
  | init => exact .inl ⟨rfl, .inr (.inr ⟨_, _, _, rfl⟩)⟩
  | keyb _ stored => simp [absorb_t stored] at moved
  | datab _ _ stored => simp [absorb_t stored] at moved
  | databFull inData full fits stored =>
    refine .inr (.inl ⟨_, rfl, inData, full, ?_⟩)
    rw [respond_t, absorb_t stored, compressEvent_t, t_add_toNat fits]
  | final inData fits => exact .inr (.inr ⟨rfl, inData, rfl, t_add_toNat fits⟩)

end Sys2Proof.Machine
end

section
/-! PROOFS. Hardware reset, between commands or cutting one short (R220). -/

namespace Sys2Proof.Machine

/-- The reset state keeps nothing but the events still to come. -/
theorem hardwareReset_eq_afterHardReset (s : State) : hardwareReset s = afterHardReset s.input := rfl

theorem deliver_hardReset {s : State} {rest : List HostEvent} (input : s.input = .hardReset :: rest) :
    deliver s = .resetTo (afterHardReset rest) := by
  simp [deliver, input, hardwareReset_eq_afterHardReset]

/-- The word of the command cut short is not looked at. -/
theorem deliver_commandCut {s : State} {w : CmdWord} {rest : List HostEvent}
    (input : s.input = .commandCut w :: rest) : deliver s = .resetTo (afterHardReset rest) := by
  simp [deliver, input, hardwareReset_eq_afterHardReset]

/-- Settles O21: either form is delivered as the reset state, and no command runs. -/
theorem hardwareResetGivesResetState : Obligations.HardwareResetGivesResetState := fun _ _ =>
  ⟨fun input => by rw [step, deliver_hardReset input],
    fun _ input => by rw [step, deliver_commandCut input]⟩

end Sys2Proof.Machine
end
